-- ==== Sys2Proof/Word.lean ====
section
/-! DEFINITION. The word types of RBSC (spec/00_scope.md R10, spec/30_encoding.md R61). -/

namespace Sys2Proof

/-- A byte: an 8-bit unsigned value (R10). -/
abbrev Byte := BitVec 8

/-- An operation word: the one 16-bit format of RBSC (R61). -/
abbrev OpWord := BitVec 16

end Sys2Proof
end

