-- ==== Sys2Proof/Syntax.lean ====
section
/-! DEFINITION. The operations of RBSC (spec/opcode_table.json; spec/30_encoding.md R67, R68) and the agents that
issue them (spec/00_scope.md R8). -/

namespace Sys2Proof

/-- The three agents (R8). -/
inductive Agent where
  | host
  | rxi
  | txi
  deriving DecidableEq, Repr

/-- The two ports a word is delivered on (R63). -/
inductive Port where
  | host
  | device
  deriving DecidableEq, Repr

/-- One constructor per row of the opcode table. The one operand is a byte, used as is (R66). -/
inductive Instr where
  /-- `INIT` (spec/40_host_port.md R78). -/
  | init
  /-- `WRITE_BYTE b` (spec/40_host_port.md R79). -/
  | writeByte (b : Byte)
  /-- `READ_BYTE` (spec/40_host_port.md R82). -/
  | readByte
  /-- `AVAILABLE` (spec/40_host_port.md R86). -/
  | available
  /-- `RX_BYTE r` (spec/41_device_port.md R95). -/
  | rxByte (r : Byte)
  /-- `TX_SERVICE` (spec/41_device_port.md R99). -/
  | txService
  deriving DecidableEq, Repr

end Sys2Proof
end

