-- ==== Sys2Proof/WellFormed.lean ====
section
/-! DEFINITION. Which agent may issue which operation (spec/30_encoding.md R63, R67, R68; spec/60_exceptions.md
R125), and what a host program may hold (spec/10_state.md R32). An operation by itself has no ill-formed term: its
one operand is a byte by its type. -/

namespace Sys2Proof

/-- The agent whose role an operation belongs to (R67, R68, R125). -/
def Instr.issuer : Instr → Agent
  | .init => .host
  | .writeByte _ => .host
  | .readByte => .host
  | .available => .host
  | .rxByte _ => .rxi
  | .txService => .txi

/-- The port an operation is delivered on (R63). -/
def Instr.port : Instr → Port
  | .init => .host
  | .writeByte _ => .host
  | .readByte => .host
  | .available => .host
  | .rxByte _ => .device
  | .txService => .device

/-- The port an agent issues on (R61, R63). -/
def Agent.port : Agent → Port
  | .host => .host
  | .rxi => .device
  | .txi => .device

/-- The port of the operation is the agent's port (R63). -/
def portMatches (a : Agent) (i : Instr) : Bool := a.port = i.port

/-- The agent plays its own role (R125): the right port, and on the device port the right agent (R71). -/
def wellIssued (a : Agent) (i : Instr) : Bool := a = i.issuer

/-- A host program holds host-port operations only (R32). -/
def hostProgramOk (p : List Instr) : Bool := p.all (portMatches .host)

end Sys2Proof
end

