-- ==== Sys2Proof/Decode.lean ====
section
/-! DEFINITION. The fields of an operation word, which words are legal, the decoder and the encoder
(spec/30_encoding.md R61 to R73). -/

namespace Sys2Proof

/-- `P = word[15]` (R63). -/
def portBit (w : OpWord) : Bool := w.getLsbD 15

/-- `OP = word[14:12]` (R64). -/
def opField (w : OpWord) : BitVec 3 := w.extractLsb' 12 3

/-- `RSV = word[11:8]` (R65). -/
def rsvField (w : OpWord) : BitVec 4 := w.extractLsb' 8 4

/-- `D = word[7:0]` (R66). -/
def dField (w : OpWord) : Byte := w.extractLsb' 0 8

/-- Why a word is illegal (R70). -/
inductive DecodeError where
  /-- `RSV` is not zero: R70 (a). -/
  | reservedField
  /-- `OP` is reserved on its port: R70 (b), (c). -/
  | reservedOperation
  /-- `D` is not zero where R69 wants zero: R70 (d). -/
  | operandNotZero
  deriving DecidableEq, Repr

/-- An operation whose `D` must be `0x00` (R69). -/
def noOperand (w : OpWord) (i : Instr) : Except DecodeError Instr :=
  if dField w = 0#8 then .ok i else .error .operandNotZero

/-- The decoder: total, from fixed positions (R73), by the maps of R67 and R68. -/
def decode (w : OpWord) : Except DecodeError Instr :=
  if rsvField w = 0#4 then
    match portBit w, (opField w).toNat with
    | false, 0 => noOperand w .init
    | false, 1 => .ok (.writeByte (dField w))
    | false, 2 => noOperand w .readByte
    | false, 3 => noOperand w .available
    | true, 0 => .ok (.rxByte (dField w))
    | true, 1 => noOperand w .txService
    | _, _ => .error .reservedOperation
  else .error .reservedField

/-- A word that matches an operation without operand in `P` and `OP` (R69). -/
def wantsZeroOperand (w : OpWord) : Bool :=
  (!portBit w && (opField w == 0#3 || opField w == 2#3 || opField w == 3#3)) || (portBit w && opField w == 1#3)

/-- R70's definition of an illegal word, clause by clause and apart from the decoder. -/
def illegalWord (w : OpWord) : Bool :=
  rsvField w != 0#4
    || (!portBit w && decide (4 ≤ (opField w).toNat))
    || (portBit w && decide (2 ≤ (opField w).toNat))
    || (wantsZeroOperand w && rsvField w == 0#4 && dField w != 0#8)

/-- The format `P OOO 0000 DDDDDDDD` (R62). -/
def packWord (p : BitVec 1) (op : BitVec 3) (d : Byte) : OpWord := p ++ op ++ 0#4 ++ d

/-- The encoder, from the maps of R67 and R68. -/
def encode : Instr → OpWord
  | .init => packWord 0#1 0#3 0#8
  | .writeByte b => packWord 0#1 1#3 b
  | .readByte => packWord 0#1 2#3 0#8
  | .available => packWord 0#1 3#3 0#8
  | .rxByte r => packWord 1#1 0#3 r
  | .txService => packWord 1#1 1#3 0#8

/-- The code of the linefeed: 0x0A (R75). -/
def lineFeed : Byte := 0x0A

/-- The code of the carriage return: 0x0D (R75). -/
def carriageReturn : Byte := 0x0D

/-- The expansion of the pseudo-operation `PUTC b` (R75, spec/40_host_port.md R88). -/
def putc (b : Byte) : List Instr :=
  if b = lineFeed then [.writeByte carriageReturn, .writeByte lineFeed] else [.writeByte b]

/-- The words of `PUTC b` (R75). -/
def putcWords (b : Byte) : List OpWord := (putc b).map encode

/-- The operation the decoder reads from the `nbits` bits of `w`, bit 0 the least significant; an operation word has
16 bits (R61), and the bits above `nbits` are 0. -/
def decodeTableWord (nbits w : Nat) : Option Instr :=
  if nbits ≤ 16 then
    match decode (BitVec.ofNat 16 (w % 2 ^ nbits)) with
    | .ok i => some i
    | .error _ => none
  else none

end Sys2Proof
end

