-- ==== Sys2Proof/Config.lean ====
section
/-! DEFINITION. What an instantiation of RBSC fixes (spec/00_scope.md R6) and the free values of the model. -/

namespace Sys2Proof

/-- The two FIFOs (R1, R5). -/
inductive Fifo where
  | rx
  | tx
  deriving DecidableEq, Repr

end Sys2Proof

namespace Sys2Proof.Config

/-- `RX_OVF`, the RX overflow policy (R6, spec/10_state.md R22). -/
inductive RxOverflow where
  | overwrite
  | dropNewest
  deriving DecidableEq, Repr, Inhabited

/-- `RX_UDF`, the RX underflow policy (R6, spec/10_state.md R23). -/
inductive RxUnderflow where
  | sentinelZero
  | stale
  deriving DecidableEq, Repr, Inhabited

/-- The byte order of the platform's bus (spec/92_eei_decisions.md D19). -/
inductive ByteOrder where
  /-- The least significant byte at the lowest address. -/
  | littleEndian
  /-- The most significant byte at the lowest address. -/
  | bigEndian
  /-- Any other order: which byte, counted from the least significant, each address holds (an entry past the register's
  bytes: log entry 14). -/
  | lanes (order : List Nat)
  deriving DecidableEq, Repr, Inhabited

/-- A register of the platform's bus: its address and its width in bits (spec/20_memory.md R59). -/
structure BusRegister where
  address : Nat
  width : Nat
  deriving DecidableEq, Repr, Inhabited

/-- The registers through which a CPU reaches the host port (R6, R59): the one each operation is issued or read
through, and any others the platform has. Two operations may share one. -/
structure HostPortRegisters where
  init : BusRegister
  writeByte : BusRegister
  readByte : BusRegister
  available : BusRegister
  others : List BusRegister
  deriving DecidableEq, Repr, Inhabited

/-- A mask bit of the platform's interrupt controller. -/
structure MaskBit where
  register : BusRegister
  bit : Nat
  deriving DecidableEq, Repr, Inhabited

/-- How an interrupt request reaches the CPU: vector number, priority level, mask, and the interrupt controller's
registers (spec/60_exceptions.md R119, D19). -/
structure InterruptBinding where
  vector : Nat
  priority : Nat
  mask : Option MaskBit
  controller : List BusRegister
  deriving DecidableEq, Repr, Inhabited

/-- `BUS_BINDING` (R6, R59): what spec/92_eei_decisions.md D19 lists under it, as plain data. The rules read only the
width of a result's register (spec/30_encoding.md R76) and the byte order (spec/20_memory.md R46). How the list is cut
into fields is DEDUCED: log entry 8. -/
structure BusBinding where
  hostPort : HostPortRegisters
  byteOrder : ByteOrder
  irqRx : InterruptBinding
  irqTx : InterruptBinding
  deriving DecidableEq, Repr, Inhabited

/-- The parameters of R6 but for `BAUD`, which is `Config.baud`. Every value of this type is a legal parameter set: a
pointer is `wideRx` (`wideTx`) bits wider than the suggested `K + 1`. -/
structure Params where
  kRx : Nat
  kTx : Nat
  wideRx : Nat
  wideTx : Nat
  rxOvf : RxOverflow
  rxUdf : RxUnderflow
  bus : BusBinding
  deriving DecidableEq, Repr, Inhabited

/-- `K_d`: log2 of the capacity of FIFO `d` (R6). -/
def Params.k (p : Params) : Fifo → Nat
  | .rx => p.kRx
  | .tx => p.kTx

/-- `W_d`: the pointer width of FIFO `d`, at least `K_d + 1` (R6). -/
def Params.w (p : Params) : Fifo → Nat
  | .rx => p.kRx + 1 + p.wideRx
  | .tx => p.kTx + 1 + p.wideTx

/-- `CAP_d = 2 ^ K_d` (R6). -/
def Params.cap (p : Params) (d : Fifo) : Nat := 2 ^ p.k d

/-- `BAUD`: any positive number, and no rule reads it (R6; spec/70_reset_and_hazards.md R145). It is no field of
`Params`, because an arbitrary real number is no plain data; nothing the machine computes depends on it (log
entry 4). -/
noncomputable opaque baud : { rate : ℝ // 0 < rate }

/-- The parameter set of the block at hand. R7: no value of it may be assumed, so it has no body. -/
opaque params : Params

/-- The `n`-th `draw()`: a byte the model does not constrain (R12, spec/40_host_port.md R84). -/
opaque draw : Nat → Byte

/-- What a cell nothing has written holds (spec/10_state.md R42: no defined value). -/
opaque powerOnByte : Fifo → Nat → Byte

/-- The `n`-th free choice among the enabled turns (spec/60_exceptions.md R120). -/
opaque choice : Nat → Nat

/-- The byte the receiver holds when the `n`-th free choice is made (spec/41_device_port.md R94). -/
opaque arrival : Nat → Byte

end Sys2Proof.Config
end

