-- ==== Sys2Proof/Machine/State.lean ====
section
/-! DEFINITION. The state of RBSC (spec/10_state.md), the reasons a step stops, and the state after reset. -/

namespace Sys2Proof.Machine

/-- `phase`, the life-cycle state (R19). -/
inductive Phase where
  | uninit
  | ready
  | faulted
  deriving DecidableEq, Repr

/-- `fault_code` (R18; spec/60_exceptions.md R109). -/
inductive FaultCode where
  /-- `NONE`, code 0. -/
  | noFault
  /-- `F_UNINIT`, code 1: a host operation other than `INIT` while `UNINIT`. -/
  | uninit
  /-- `F_REINIT`, code 2: `INIT` while `READY`. -/
  | reinit
  /-- `F_ILLEGAL`, code 3: an illegal operation word. -/
  | illegal
  /-- `F_PORT`, code 4: a legal word on the wrong port. -/
  | port
  deriving DecidableEq, Repr

/-- A value returned to `HOST` (R31; spec/30_encoding.md R76). -/
inductive Result where
  /-- What `READ_BYTE` returns: 8 bits. -/
  | byte (b : Byte)
  /-- What `AVAILABLE` returns: an occupancy of `W_RX` bits. -/
  | count (n : Nat)
  deriving DecidableEq, Repr

/-- One turn of an agent. `HOST` takes the word of its program at `pc` (R32); a device agent delivers a word on the
device port (spec/30_encoding.md R61). -/
inductive Turn where
  | host
  | rxi (w : OpWord)
  | txi (w : OpWord)
  deriving DecidableEq, Repr

/-- A byte array: the cells that something has written, addresses strictly rising. -/
abbrev Memory := List Host.Cell

/-- The whole state. `params` is configuration that every state carries (log entry 4); `agenda` and `draws` are the
model's own (log entries 3 and 5). -/
structure State where
  /-- The parameters of spec/00_scope.md R6; no operation changes them (R5). -/
  params : Config.Params
  /-- `phase` (R19). -/
  phase : Phase
  /-- `fault_code` (R18). -/
  faultCode : FaultCode
  /-- `rx_in`, a `W_RX`-bit counter (R20). -/
  rxIn : Nat
  /-- `rx_out`, a `W_RX`-bit counter (R20). -/
  rxOut : Nat
  /-- `tx_in`, a `W_TX`-bit counter (R21). -/
  txIn : Nat
  /-- `tx_out`, a `W_TX`-bit counter (R21). -/
  txOut : Nat
  /-- `txie`, the transmit-empty interrupt enable (R28). -/
  txie : Bool
  /-- `rx_buf` (R29). -/
  rxBuf : Memory
  /-- `tx_buf` (R29). -/
  txBuf : Memory
  /-- `txline`, the bytes handed to the transmitter, oldest first (R30). -/
  txline : List Byte
  /-- `results`, the values returned to `HOST`, oldest first (R31). -/
  results : List Result
  /-- `pc`, the position of `HOST` in its program (R32). -/
  pc : Nat
  /-- The host program (R32). -/
  program : List OpWord
  /-- The turns placed from outside, next first; when there is none the schedule is a free choice. -/
  agenda : List Turn
  /-- How many free choices have been used. -/
  draws : Nat
  deriving DecidableEq, Repr

/-- Why the machine stops. A fault of the spec is no stop: it is a state with phase `FAULTED`
(spec/60_exceptions.md R111). -/
inductive Fault where
  /-- `not_enabled` (spec/00_scope.md R12): the agent has no step in this state. Raised by the meanings and by the
  step for an agent whose turn it is. Safe: RBSC has no run that takes this turn here. -/
  | notEnabled (a : Agent)
  /-- Raised by the step alone: no turn is placed and no agent has an enabled operation. Safe: RBSC has no step. -/
  | nothingEnabled
  deriving DecidableEq, Repr

/-- Why the model has no meaning for an instruction. -/
inductive Refusal where
  /-- Raised by an arm of `exec` whose instruction has no meaning yet; safe. No arm raises it in this model. -/
  | notModelled (mnemonic : String)
  deriving DecidableEq, Repr

/-- Power-on reset (R40). The pointers and `txie` are unspecified there: 0 is the model's choice (log entry 1); no
cell of a buffer has been written (log entry 2); no program and no turn is placed (log entries 5 and 6). -/
def State.reset : State where
  params := Config.params
  phase := .uninit
  faultCode := .noFault
  rxIn := 0
  rxOut := 0
  txIn := 0
  txOut := 0
  txie := false
  rxBuf := []
  txBuf := []
  txline := []
  results := []
  pc := 0
  program := []
  agenda := []
  draws := 0

end Sys2Proof.Machine
end

