-- ==== Sys2Proof/Machine/Ops.lean ====
section
/-! DEFINITION. The named operations over the buffers and the registers (spec/00_scope.md R11, R12;
spec/20_memory.md R44, R45), fault entry (spec/60_exceptions.md R111) and the common part of a host and of a device
step (spec/40_host_port.md R77; spec/41_device_port.md R98). -/

namespace Sys2Proof.Machine

/-- What a step answers. -/
abbrev Answer := Host.Outcome State Fault Refusal

/-! ### Modular arithmetic (R11) -/

/-- `a +_W b`. -/
def addMod (w a b : Nat) : Nat := (a + b) % 2 ^ w

/-- `a -_W b`, for any `a` and `b`. -/
def subMod (w a b : Nat) : Nat := (a + (2 ^ w - b % 2 ^ w)) % 2 ^ w

/-- `slot_d(p) = p[K-1:0]`, the one addressing mode (R11, R44). -/
def slotOf (k p : Nat) : Nat := p % 2 ^ k

/-! ### Byte arrays (R45) -/

/-- What a cell reads as that nothing has written: no value. -/
def Memory.unlisted : Option Byte := none

/-- The last byte written to a cell (R58), if any was. -/
def Memory.read : Memory → Nat → Option Byte
  | [], _ => Memory.unlisted
  | (x, b) :: m, a => if x = a then some b else Memory.read m a

/-- Write one byte, keeping the addresses strictly rising. -/
def Memory.write : Memory → Nat → Byte → Memory
  | [], a, v => [(a, v)]
  | (x, b) :: m, a, v =>
    if a < x then (a, v) :: (x, b) :: m
    else if a = x then (a, v) :: m
    else (x, b) :: Memory.write m a v

/-- The canonical form: addresses strictly rising. No entry can equal what an unlisted cell reads as. -/
def Memory.wf : Memory → Bool
  | [] => true
  | [_] => true
  | (x, _) :: (y, b) :: m => decide (x < y) && Memory.wf ((y, b) :: m)

/-- Every listed cell is a cell of an array of `n` cells. -/
def Memory.below (n : Nat) (m : Memory) : Bool := m.all fun c => decide (c.1 < n)

/-! ### Registers and cells of one FIFO -/

/-- `in_d`. -/
def State.inPtr (s : State) : Fifo → Nat
  | .rx => s.rxIn
  | .tx => s.txIn

/-- `out_d`. -/
def State.outPtr (s : State) : Fifo → Nat
  | .rx => s.rxOut
  | .tx => s.txOut

/-- The byte array of FIFO `d`. -/
def State.buf (s : State) : Fifo → Memory
  | .rx => s.rxBuf
  | .tx => s.txBuf

/-- `slot_d(in_d)`. -/
def State.inSlot (s : State) (d : Fifo) : Nat := slotOf (s.params.k d) (s.inPtr d)

/-- `slot_d(out_d)`. -/
def State.outSlot (s : State) (d : Fifo) : Nat := slotOf (s.params.k d) (s.outPtr d)

/-- `MemRead(d, a, 1)`: the last byte written, else a free byte (R42; log entry 2). -/
def State.cell (s : State) (d : Fifo) (a : Nat) : Byte :=
  ((s.buf d).read a).getD (Config.powerOnByte d a)

/-- `MemWrite(d, a, 1, v)`. -/
def State.writeCell (s : State) (d : Fifo) (a : Nat) (v : Byte) : State :=
  match d with
  | .rx => { s with rxBuf := s.rxBuf.write a v }
  | .tx => { s with txBuf := s.txBuf.write a v }

/-- `in_d <- in_d +_W 1`. -/
def State.advanceIn (s : State) (d : Fifo) : State :=
  match d with
  | .rx => { s with rxIn := addMod (s.params.w .rx) s.rxIn 1 }
  | .tx => { s with txIn := addMod (s.params.w .tx) s.txIn 1 }

/-- `out_d <- out_d +_W 1`. -/
def State.advanceOut (s : State) (d : Fifo) : State :=
  match d with
  | .rx => { s with rxOut := addMod (s.params.w .rx) s.rxOut 1 }
  | .tx => { s with txOut := addMod (s.params.w .tx) s.txOut 1 }

/-- A producer: store at `slot_d(in_d)`, then publish `in_d` (R79, R95; spec/70_reset_and_hazards.md R139). -/
def State.enqueue (s : State) (d : Fifo) (v : Byte) : State :=
  (s.writeCell d (s.inSlot d) v).advanceIn d

/-- The byte a consumer reads: the cell at `slot_d(out_d)` (R82, R99). -/
def State.oldest (s : State) (d : Fifo) : Byte := s.cell d (s.outSlot d)

/-! ### Observations, the program position and free values (R12) -/

/-- `emit(b)`. -/
def State.emit (s : State) (b : Byte) : State := { s with txline := s.txline ++ [b] }

/-- `return v`. -/
def State.deliverResult (s : State) (v : Result) : State := { s with results := s.results ++ [v] }

/-- `pc <- pc + 1`. -/
def State.advancePc (s : State) : State := { s with pc := s.pc + 1 }

/-- `return draw()`: a free byte, fresh for each use. -/
def State.deliverDraw (s : State) : State :=
  { s.deliverResult (.byte (Config.draw s.draws)) with draws := s.draws + 1 }

/-- `txie <- v`. -/
def State.setTxie (s : State) (v : Bool) : State := { s with txie := v }

/-- `raise Fault(c)`: fault entry (R111). There is no return from a fault (R117, R122). -/
def State.raiseFault (s : State) (c : FaultCode) : State :=
  { s with phase := .faulted, faultCode := c }

/-- The numeric code of a fault (R109). -/
def FaultCode.value : FaultCode → Nat
  | .noFault => 0
  | .uninit => 1
  | .reinit => 2
  | .illegal => 3
  | .port => 4

/-! ### The common part of a step -/

/-- A host operation other than `INIT` (R77): no step in `FAULTED`, `F_UNINIT` in `UNINIT`, else the operation and
then `pc <- pc + 1`. -/
def hostOperation (s : State) (body : State → State) : Answer :=
  match s.phase with
  | .faulted => .fault (.notEnabled .host)
  | .uninit => .next (s.raiseFault .uninit)
  | .ready => .next (body s).advancePc

/-- A device event of agent `a` (R98): a step in `READY` alone, and only while its interrupt is armed. -/
def deviceEvent (a : Agent) (armed : Bool) (s : State) (body : State → State) : Answer :=
  match s.phase with
  | .ready => if armed then .next (body s) else .fault (.notEnabled a)
  | .uninit => .fault (.notEnabled a)
  | .faulted => .fault (.notEnabled a)

end Sys2Proof.Machine
end

