-- ==== Sys2Proof/Machine/Flags.lean ====
section
/-! DEFINITION. The computed status of RBSC: occupancy, full, empty, overrun, the TX controller's state and the two
interrupt request signals (spec/10_state.md R24 to R28; spec/41_device_port.md R93, R94, R103). -/

namespace Sys2Proof.Machine

/-- `occ_d = in_d -_W out_d` (R24). -/
def State.occ (s : State) (d : Fifo) : Nat := subMod (s.params.w d) (s.inPtr d) (s.outPtr d)

/-- FIFO `d` is empty: `in_d = out_d` (R25). -/
def State.isEmpty (s : State) (d : Fifo) : Bool := decide (s.inPtr d = s.outPtr d)

/-- FIFO `d` is full: `occ_d = CAP_d` (R26). -/
def State.isFull (s : State) (d : Fifo) : Bool := decide (s.occ d = s.params.cap d)

/-- The RX FIFO is in overrun: `occ_RX > CAP_RX` (R27). -/
def State.inOverrun (s : State) : Bool := decide (s.params.cap .rx < s.occ .rx)

/-- The two states of the TX controller (R103). -/
inductive TxState where
  | idle
  | transmitting
  deriving DecidableEq, Repr

/-- The TX controller's state is `txie` (R103). -/
def State.txState (s : State) : TxState := if s.txie then .transmitting else .idle

/-- `irq_rx`, given the UART condition `rx_ready` (R93). -/
def State.irqRx (s : State) (rxReady : Bool) : Bool := decide (s.phase = .ready) && rxReady

/-- `irq_tx`, given the UART condition `tx_ready` (R93). -/
def State.irqTx (s : State) (txReady : Bool) : Bool := decide (s.phase = .ready) && s.txie && txReady

/-- An agent may be scheduled (R94; spec/40_host_port.md R77, R92). -/
def State.enabled (s : State) : Agent → Bool
  | .host => decide (s.phase ≠ .faulted) && decide (s.pc < s.program.length)
  | .rxi => decide (s.phase = .ready)
  | .txi => decide (s.phase = .ready) && s.txie

end Sys2Proof.Machine
end

