-- ==== Sys2Proof/Machine/Operands.lean ====
section
/-! DEFINITION. The operands and results of the operations. The one operand is the byte `D`, used as is
(spec/30_encoding.md R66; the decoder reads it), and the one addressing mode is `slotOf` of Machine/Ops.lean. Here
stand the unread bytes of a FIFO in the order the slots give them, and a result on the platform's bus. -/

namespace Sys2Proof.Machine

/-- The slot of the `j`-th unread byte of FIFO `d`, counted from the oldest (spec/20_memory.md R44). -/
def State.unreadSlot (s : State) (d : Fifo) (j : Nat) : Nat :=
  slotOf (s.params.k d) (addMod (s.params.w d) (s.outPtr d) j)

/-- The unread bytes of FIFO `d`, oldest first, as the slots hold them (spec/40_host_port.md R85). -/
def State.unread (s : State) (d : Fifo) : List Byte :=
  (List.range (s.occ d)).map fun j => s.cell d (s.unreadSlot d j)

/-- How many bits a result has (spec/30_encoding.md R76). -/
def Result.width (p : Config.Params) : Result → Nat
  | .byte _ => 8
  | .count _ => p.w .rx

/-- A result as an unsigned number (R76). -/
def Result.number : Result → Nat
  | .byte b => b.toNat
  | .count n => n

/-- The bus register a result is read from (spec/20_memory.md R59). -/
def Result.register (p : Config.Params) : Result → Config.BusRegister
  | .byte _ => p.bus.hostPort.readByte
  | .count _ => p.bus.hostPort.available

/-- A result in its bus register: zero-extended where the register is at least as wide (R76). R76 gives no value on a
narrower one. -/
def Result.onBus (p : Config.Params) (r : Result) : Option (BitVec (r.register p).width) :=
  if r.width p ≤ (r.register p).width then some (BitVec.ofNat (r.register p).width r.number) else none

/-- The `n` low bytes of a number, least significant first. -/
def lowBytes (n v : Nat) : List Byte := (List.range n).map fun i => BitVec.ofNat 8 (v / 256 ^ i)

/-- Bytes given least significant first, in the order of the bus's addresses. DESIGN CHOICE: an entry of `lanes` that
names no byte of the register is skipped (log entry 14). -/
def inBusOrder (bs : List Byte) : Config.ByteOrder → List Byte
  | .littleEndian => bs
  | .bigEndian => bs.reverse
  | .lanes order => order.filterMap (bs[·]?)

/-- The bytes of a result's bus register, lowest address first: their order belongs to `BUS_BINDING` (spec/20_memory.md
R46). DESIGN CHOICE: one byte for each address, and a register whose width is no multiple of 8 takes whole bytes, rounded
up, the bits above its width 0 (log entry 14). -/
def Result.busBytes (p : Config.Params) (r : Result) : Option (List Byte) :=
  (r.onBus p).map fun v => inBusOrder (lowBytes (((r.register p).width + 7) / 8) v.toNat) p.bus.byteOrder

end Sys2Proof.Machine
end

