-- ==== Sys2Proof/Machine/DevicePort.lean ====
section
/-! DEFINITION. The device-port events (spec/41_device_port.md R93 to R102). -/

namespace Sys2Proof.Machine

/-- The newest byte is dropped: `RX_OVF = DROP_NEWEST` and the RX FIFO is full (R96). -/
def State.dropsNewest (s : State) : Bool :=
  decide (s.params.rxOvf = .dropNewest) && s.isFull .rx

/-- `RX_BYTE r` (R95): always armed in `READY` (R105); dropped by R96, else stored, over an unread byte if need be
(R97). -/
def execRxByte (r : Byte) (s : State) : Answer :=
  deviceEvent .rxi true s fun t => if t.dropsNewest then t else t.enqueue .rx r

/-- The first half of `TX_SERVICE` (R99): a non-empty TX FIFO gives its oldest byte to the transmitter. -/
def State.drainOne (s : State) : State :=
  if s.isEmpty .tx then s else (s.advanceOut .tx).emit (s.oldest .tx)

/-- The second half of `TX_SERVICE` (R99): "disables itself once the buffer is empty". -/
def State.disarmIfEmpty (s : State) : State := if s.isEmpty .tx then s.setTxie false else s

/-- `TX_SERVICE` (R99, R100): armed by `txie` (R101). -/
def execTxService (s : State) : Answer :=
  deviceEvent .txi s.txie s fun t => t.drainOne.disarmIfEmpty

end Sys2Proof.Machine
end

