-- ==== Sys2Proof/Machine/HostPort.lean ====
section
/-! DEFINITION. The host-port operations (spec/40_host_port.md R77 to R91). -/

namespace Sys2Proof.Machine

/-- The state after a successful `INIT`: both FIFOs empty, the TX controller idle, the buffers untouched (R78;
spec/10_state.md R41, R42). The bit rate is configured to `Config.baud`, which no rule reads. -/
def State.initialised (s : State) : State :=
  { s with phase := .ready, rxIn := 0, rxOut := 0, txIn := 0, txOut := 0, txie := false }

/-- `INIT` (R78): `F_REINIT` in `READY`, no step in `FAULTED` (spec/60_exceptions.md R112, R117). -/
def execInit (s : State) : Answer :=
  match s.phase with
  | .faulted => .fault (.notEnabled .host)
  | .ready => .next (s.raiseFault .reinit)
  | .uninit => .next s.initialised.advancePc

/-- "Only if the transmitter is currently idle, re-arms the transmit-empty interrupt": step 3 of R79. -/
def State.rearm (s : State) : State := if s.txie = false then s.setTxie true else s

/-- `WRITE_BYTE b` (R79): dropped when the TX FIFO is full; else store, publish, re-arm, in this order (R80). -/
def execWriteByte (b : Byte) (s : State) : Answer :=
  hostOperation s fun t => if t.isFull .tx then t else (t.enqueue .tx b).rearm

/-- `READ_BYTE` on an empty RX FIFO, by the underflow policy (R83, R84). -/
def State.readOnEmpty (s : State) : State :=
  match s.params.rxUdf with
  | .sentinelZero => s.deliverResult (.byte 0x00)
  | .stale => s.deliverDraw

/-- `READ_BYTE` (R82): on a non-empty RX FIFO, in overrun too (R85), read the slot, publish, return the byte. -/
def execReadByte (s : State) : Answer :=
  hostOperation s fun t =>
    if t.isEmpty .rx then t.readOnEmpty
    else (t.advanceOut .rx).deliverResult (.byte (t.oldest .rx))

/-- `AVAILABLE` (R86): returns `occ_RX`. -/
def execAvailable (s : State) : Answer :=
  hostOperation s fun t => t.deliverResult (.count (t.occ .rx))

end Sys2Proof.Machine
end

