-- ==== Sys2Proof/Machine/Dispatch.lean ====
section
/-! DEFINITION. One arm per operation. -/

namespace Sys2Proof.Machine

def exec (i : Instr) (s : State) : Host.Outcome State Fault Refusal :=
  match i with
  | .init => Sys2Proof.Machine.execInit s
  | .writeByte b => Sys2Proof.Machine.execWriteByte b s
  | .readByte => Sys2Proof.Machine.execReadByte s
  | .available => Sys2Proof.Machine.execAvailable s
  | .rxByte r => Sys2Proof.Machine.execRxByte r s
  | .txService => Sys2Proof.Machine.execTxService s

end Sys2Proof.Machine
end

