-- ==== Sys2Proof/Machine/Ports.lean ====
section
/-! DEFINITION. How a word reaches the block: the host port and the device port (spec/30_encoding.md R61, R63, R70,
R71; spec/40_host_port.md R77). -/

namespace Sys2Proof.Machine

/-- The agent of a turn. -/
def Turn.agent : Turn → Agent
  | .host => .host
  | .rxi _ => .rxi
  | .txi _ => .txi

/-- The word an agent has for its turn: `HOST` the word of its program at `pc`, none at its end (R92). -/
def State.wordOf (s : State) : Turn → Option OpWord
  | .host => s.program[s.pc]?
  | .rxi w => some w
  | .txi w => some w

/-- A word arrives from agent `a`. The checks stand in the order of R77 and R116: `FAULTED`, `F_ILLEGAL`, `F_PORT`;
the rest are the operation's own. DEDUCED for the device port: log entry 9. -/
def deliver (a : Agent) (w : OpWord) (s : State) : Answer :=
  match s.phase with
  | .faulted => .fault (.notEnabled a)
  | _ =>
    match decode w with
    | .error _ => .next (s.raiseFault .illegal)
    | .ok i => if wellIssued a i then exec i s else .next (s.raiseFault .port)

/-- One turn of one agent: RBSC's transition, whoever chose the turn. -/
def takeTurn (t : Turn) (s : State) : Answer :=
  match s.wordOf t with
  | some w => deliver t.agent w s
  | none => .fault (.notEnabled t.agent)

/-- Put a word where `HOST` takes its next one: position `pc` of its program, which is made long enough. -/
def placeHostWord (p : List OpWord) (pc : Nat) (w : OpWord) : List OpWord :=
  p.take pc ++ List.replicate (pc - p.length) (encode .init) ++ [w] ++ p.drop (pc + 1)

/-- The turn in which a word is issued on its own port: by `HOST`, or by the device agent its `OP` belongs to. -/
def turnFor (w : OpWord) : Turn :=
  if portBit w then (if opField w = 0#3 then .rxi w else .txi w) else .host

end Sys2Proof.Machine
end

