-- ==== Sys2Proof/Machine/Schedule.lean ====
section
/-! DEFINITION. Which agent steps next (spec/00_scope.md R8; spec/60_exceptions.md R120): the turn placed from
outside, else any agent that has an enabled operation, by free choice. -/

namespace Sys2Proof.Machine

/-- The turns that are enabled: at most one for each agent; the byte of the receiver is free (R94). -/
def State.enabledTurns (s : State) : List Turn :=
  (if s.enabled .host then [.host] else [])
    ++ (if s.enabled .rxi then [.rxi (encode (.rxByte (Config.arrival s.draws)))] else [])
    ++ (if s.enabled .txi then [.txi (encode .txService)] else [])

/-- A free choice among `t :: ts`. -/
def chooseTurn (n : Nat) (t : Turn) (ts : List Turn) : Turn :=
  match ts with
  | [] => t
  | _ :: _ => ((t :: ts)[Config.choice n % (ts.length + 1)]?).getD t

/-- The next turn, and the state that is left for it: the agenda's first turn, or a free choice. -/
def State.nextTurn (s : State) : Option (Turn × State) :=
  match s.agenda with
  | t :: rest => some (t, { s with agenda := rest })
  | [] =>
    match s.enabledTurns with
    | [] => none
    | t :: ts => some (chooseTurn s.draws t ts, { s with draws := s.draws + 1 })

end Sys2Proof.Machine
end

