-- ==== Sys2Proof/Machine/Step.lean ====
section
/-! DEFINITION. The step: the next turn is taken. -/

namespace Sys2Proof.Machine

/-- One step of the whole machine. -/
def step (s : State) : Host.Outcome State Fault Refusal :=
  match s.nextTurn with
  | some (t, s') => takeTurn t s'
  | none => .fault .nothingEnabled

/-- `s` with the word `w` where the next step takes it: in the host program at `pc`, or at the device port, and the
agent that issues it next on the agenda. -/
def State.withFetchWord (s : State) (nbits w : Nat) : State :=
  let v := BitVec.ofNat 16 (w % 2 ^ nbits)
  match turnFor v with
  | .host => { s with program := placeHostWord s.program s.pc v, agenda := .host :: s.agenda }
  | t => { s with agenda := t :: s.agenda }

end Sys2Proof.Machine
end

