-- ==== Sys2Proof/Machine/Assembler.lean ====
section
/-! DEFINITION. The assembly syntax of operation words, one per line (spec/30_encoding.md R74): a mnemonic, an
operand as a hex, decimal or character literal, comments from `;`, and an agent prefix in a listing that interleaves
agents. The spec's listings write `PUTC` too; it assembles to its expansion (R75). DEDUCED: log entry 10. -/

namespace Sys2Proof.Machine

/-- One token of a line, as character codes. -/
inductive Token where
  /-- A run of characters other than space, comment and quote. -/
  | word (codes : List Nat)
  /-- A character literal, escapes resolved. -/
  | char (code : Nat)
  deriving DecidableEq, Repr

/-- The code an escape letter stands for: `n` is 0x0A, `r` is 0x0D (R74). -/
def escapeCode (c : Nat) : Option Nat :=
  if c = 110 then some 0x0A else if c = 114 then some 0x0D else none

/-- End a word, if one is open; `acc` holds it backwards. -/
def closeWord (acc : List Nat) (ts : List Token) : List Token :=
  if acc.isEmpty then ts else .word acc.reverse :: ts

/-- The tokens of a line: code 39 is the quote, 92 the backslash, 59 the semicolon, 32 and 9 are blanks. -/
def tokens (acc : List Nat) : List Nat → Option (List Token)
  | [] => some (closeWord acc [])
  | 59 :: _ => some (closeWord acc [])
  | 39 :: 92 :: c :: 39 :: rest =>
    match escapeCode c, tokens [] rest with
    | some v, some ts => some (closeWord acc (.char v :: ts))
    | _, _ => none
  | 39 :: c :: 39 :: rest => (tokens [] rest).map fun ts => closeWord acc (.char c :: ts)
  | 39 :: _ => none
  | c :: rest =>
    if c = 32 ∨ c = 9 then (tokens [] rest).map (closeWord acc) else tokens (c :: acc) rest

/-- The value of a digit in a base of at most 16. -/
def digitValue (base c : Nat) : Option Nat :=
  let v := if 48 ≤ c ∧ c ≤ 57 then some (c - 48)
    else if 65 ≤ c ∧ c ≤ 70 then some (c - 55)
    else if 97 ≤ c ∧ c ≤ 102 then some (c - 87)
    else none
  v.filter (· < base)

/-- The number a digit string stands for. -/
def digitsValue (base acc : Nat) : List Nat → Option Nat
  | [] => some acc
  | c :: rest =>
    match digitValue base c with
    | some v => digitsValue base (acc * base + v) rest
    | none => none

/-- An operand: `0xHH`, a decimal `0..255`, or a character literal of an ASCII character (R74). -/
def operandByte : Token → Option Byte
  | .char c => if c < 128 then some (BitVec.ofNat 8 c) else none
  | .word [48, 120, a, b] => (digitsValue 16 0 [a, b]).map (BitVec.ofNat 8)
  | .word [] => none
  | .word cs => ((digitsValue 10 0 cs).filter (· < 256)).map (BitVec.ofNat 8)

/-- The codes of a name. -/
def codesOf (cs : List Char) : List Nat := cs.map Char.toNat

/-- The agent a prefix names: `HOST:`, `RXI:` or `TXI:` (R74). -/
def prefixAgent (w : List Nat) : Option Agent :=
  if w = codesOf ['H', 'O', 'S', 'T', ':'] then some .host
  else if w = codesOf ['R', 'X', 'I', ':'] then some .rxi
  else if w = codesOf ['T', 'X', 'I', ':'] then some .txi
  else none

/-- The operations of a mnemonic and its operand tokens; none where the line is no operation (R74, R75). -/
def assembleTokens : List Token → Option (List Instr)
  | [] => some []
  | [.word w] =>
    if w = codesOf ['I', 'N', 'I', 'T'] then some [.init]
    else if w = codesOf ['R', 'E', 'A', 'D', '_', 'B', 'Y', 'T', 'E'] then some [.readByte]
    else if w = codesOf ['A', 'V', 'A', 'I', 'L', 'A', 'B', 'L', 'E'] then some [.available]
    else if w = codesOf ['T', 'X', '_', 'S', 'E', 'R', 'V', 'I', 'C', 'E'] then some [.txService]
    else none
  | [.word w, operand] =>
    match operandByte operand with
    | none => none
    | some b =>
      if w = codesOf ['W', 'R', 'I', 'T', 'E', '_', 'B', 'Y', 'T', 'E'] then some [.writeByte b]
      else if w = codesOf ['R', 'X', '_', 'B', 'Y', 'T', 'E'] then some [.rxByte b]
      else if w = codesOf ['P', 'U', 'T', 'C'] then some (putc b)
      else none
  | _ => none

/-- One line: the agent of its prefix, if it has one, and its operations; an empty or comment line has none. -/
def assembleLine (line : List Char) : Option (Option Agent × List Instr) :=
  match tokens [] (codesOf line) with
  | none => none
  | some ts =>
    match ts with
    | .word w :: rest =>
      match prefixAgent w with
      | some a => (assembleTokens rest).map fun is => (some a, is)
      | none => (assembleTokens ts).map fun is => (none, is)
    | _ => (assembleTokens ts).map fun is => (none, is)

/-- A listing without agent prefixes other than `HOST:` as the words of a host program; none where a line is wrong. -/
def assembleProgram : List (List Char) → Option (List OpWord)
  | [] => some []
  | line :: rest =>
    match assembleLine line, assembleProgram rest with
    | some (some .rxi, _), _ => none
    | some (some .txi, _), _ => none
    | some (_, is), some ws => some (is.map encode ++ ws)
    | _, _ => none

end Sys2Proof.Machine
end

