-- ==== Sys2Proof/Safety.lean ====
section
/-! DEFINITION. Runs, reachable states, fairness, the invariant, how a run ends and what it shows: the terms that
claims about RBSC use (spec/00_scope.md R17; spec/41_device_port.md R106; spec/70_reset_and_hazards.md R149, R150). -/

namespace Sys2Proof.Machine

/-! ### Runs -/

/-- A schedule, turn by turn; none as soon as a turn is not enabled. -/
def runTurns : List Turn → State → Option State
  | [], s => some s
  | t :: ts, s =>
    match takeTurn t s with
    | .next s' => runTurns ts s'
    | .fault _ => none
    | .refused _ => none

/-- A list of operations, each issued by its own agent; none as soon as one is not enabled. -/
def runInstrs : List Instr → State → Option State
  | [], s => some s
  | i :: is, s =>
    match exec i s with
    | .next s' => runInstrs is s'
    | .fault _ => none
    | .refused _ => none

/-- A device agent's turn that issues its own event (spec/60_exceptions.md R116, R125). -/
def Turn.ownEvent : Turn → Bool
  | .host => false
  | .rxi w => decide (portBit w = true ∧ opField w = 0#3 ∧ rsvField w = 0#4)
  | .txi w => decide (w = encode .txService)

/-- Power-on reset with everything that spec/10_state.md R40 leaves unspecified left unspecified: the pointers,
`txie` and the buffers (in canonical form and in range). -/
structure PowerOn (s : State) : Prop where
  phase : s.phase = .uninit
  faultCode : s.faultCode = .noFault
  txline : s.txline = []
  results : s.results = []
  pc : s.pc = 0
  rxWf : s.rxBuf.wf = true
  txWf : s.txBuf.wf = true
  rxBelow : s.rxBuf.below (s.params.cap .rx) = true
  txBelow : s.txBuf.below (s.params.cap .tx) = true

/-- A state some schedule leads to from some power-on state. -/
def Reachable (s : State) : Prop := ∃ s₀ ts, PowerOn s₀ ∧ runTurns ts s₀ = some s

/-- An infinite execution: the turns taken and the states they lead through. -/
def Execution (turns : Nat → Turn) (states : Nat → State) : Prop :=
  ∀ n, takeTurn (turns n) (states n) = .next (states (n + 1))

/-- Turn `t` in state `s` is `TX_SERVICE` issued by `TXI`. -/
def isTxService (t : Turn) (s : State) : Prop := t.agent = .txi ∧ s.wordOf t = some (encode .txService)

/-- Weak fairness of `TX_SERVICE` (R106). -/
def WeaklyFair (turns : Nat → Turn) (states : Nat → State) : Prop :=
  (∃ n, ∀ m, n ≤ m → (states m).phase = .ready ∧ (states m).txie = true) →
    ∀ n, ∃ m, n ≤ m ∧ isTxService (turns m) (states m)

/-! ### The bytes of a run (spec/20_memory.md R52) -/

/-- The operation a turn performs, if its word is legal and its agent's own. -/
def State.operationOf (s : State) (t : Turn) : Option Instr :=
  match s.wordOf t with
  | none => none
  | some w =>
    match decode w with
    | .ok i => if wellIssued t.agent i then some i else none
    | .error _ => none

/-- The byte a turn's `WRITE_BYTE` puts into the TX FIFO. -/
def State.acceptedTx (s : State) (t : Turn) : List Byte :=
  match s.operationOf t with
  | some (.writeByte b) => if s.phase = .ready ∧ s.isFull .tx = false then [b] else []
  | _ => []

/-- The byte a turn's `RX_BYTE` puts into the RX FIFO. -/
def State.acceptedRx (s : State) (t : Turn) : List Byte :=
  match s.operationOf t with
  | some (.rxByte r) => if s.phase = .ready ∧ s.dropsNewest = false then [r] else []
  | _ => []

/-- The stored byte a turn's `READ_BYTE` returns on a non-empty RX FIFO. -/
def State.takenRx (s : State) (t : Turn) : List Byte :=
  match s.operationOf t with
  | some .readByte => if s.phase = .ready ∧ s.isEmpty .rx = false then [s.oldest .rx] else []
  | _ => []

/-- What the turns of a schedule contribute, in order, as long as they are enabled. -/
def collect (f : State → Turn → List Byte) : List Turn → State → List Byte
  | [], _ => []
  | t :: ts, s =>
    match takeTurn t s with
    | .next s' => f s t ++ collect f ts s'
    | .fault _ => []
    | .refused _ => []

/-! ### The invariant -/

/-- FIFO `d` in `READY`: the pointers have their width, and every unread cell has been written
(spec/10_state.md R20, R21; spec/20_memory.md R49). -/
structure FifoInv (s : State) (d : Fifo) : Prop where
  inRange : s.inPtr d < 2 ^ s.params.w d
  outRange : s.outPtr d < 2 ^ s.params.w d
  written : ∀ j, j < s.occ d → ((s.buf d).read (s.unreadSlot d j)).isSome

/-- What holds in `READY` (spec/10_state.md R35, R36, R37). -/
structure ReadyInv (s : State) : Prop where
  rx : FifoInv s .rx
  tx : FifoInv s .tx
  txBound : s.occ .tx ≤ s.params.cap .tx
  rxBound : s.params.rxOvf = .dropNewest → s.occ .rx ≤ s.params.cap .rx
  armed : s.txie = true ↔ 0 < s.occ .tx

/-- What every step keeps. -/
structure BlockInv (s : State) : Prop where
  rxWf : s.rxBuf.wf = true
  txWf : s.txBuf.wf = true
  rxBelow : s.rxBuf.below (s.params.cap .rx) = true
  txBelow : s.txBuf.below (s.params.cap .tx) = true
  fault : s.phase = .faulted ↔ s.faultCode ≠ .noFault
  ready : s.phase = .ready → ReadyInv s

/-! ### Ends and observations -/

/-- A run ends successfully (R149). -/
def EndsSuccessfully (s : State) : Prop :=
  s.phase = .ready ∧ s.pc = s.program.length ∧ s.txie = false

/-- A run has failed (R149). -/
def HasFailed (s : State) : Prop := s.phase = .faulted

/-- A run of an empty host program that stays in `UNINIT` has ended too (R149). -/
def EndsUninitialised (s : State) : Prop := s.phase = .uninit ∧ s.pc = s.program.length

/-- A run has ended: no host operation of it is left, or it failed (R149). -/
def HasEnded (s : State) : Prop := EndsSuccessfully s ∨ HasFailed s ∨ EndsUninitialised s

/-- The registers of RBSC, the table of spec/10_state.md R18. -/
structure Registers where
  phase : Phase
  faultCode : FaultCode
  rxIn : Nat
  rxOut : Nat
  txIn : Nat
  txOut : Nat
  txie : Bool
  deriving DecidableEq, Repr

/-- The registers of a state. -/
def State.registers (s : State) : Registers where
  phase := s.phase
  faultCode := s.faultCode
  rxIn := s.rxIn
  rxOut := s.rxOut
  txIn := s.txIn
  txOut := s.txOut
  txie := s.txie

/-- What is observed of an ended run (R17, R150): the results, the line, and the final RBSC state, which is the registers
(`fault_code` among them), the written cells of the two buffers and the position of `HOST`. -/
structure Observation where
  results : List Result
  txline : List Byte
  registers : Registers
  rxBuf : Memory
  txBuf : Memory
  pc : Nat
  deriving DecidableEq, Repr

/-- The observation of a state (R17, R150). -/
def State.observe (s : State) : Observation where
  results := s.results
  txline := s.txline
  registers := s.registers
  rxBuf := s.rxBuf
  txBuf := s.txBuf
  pc := s.pc

/-- Two states that agree on everything power-on reset specifies (R40, R131), and on the model's own fields. -/
structure SamePowerOn (s t : State) : Prop where
  params : s.params = t.params
  program : s.program = t.program
  draws : s.draws = t.draws
  left : PowerOn s
  right : PowerOn t

/-- Two states that differ in nothing any agent will ever be shown: everything but the registers that `INIT` has still
to write and the cells that hold no unread byte (R40, R42). -/
structure Alike (s t : State) : Prop where
  params : s.params = t.params
  program : s.program = t.program
  draws : s.draws = t.draws
  phase : s.phase = t.phase
  faultCode : s.faultCode = t.faultCode
  txline : s.txline = t.txline
  results : s.results = t.results
  pc : s.pc = t.pc
  left : BlockInv s
  right : BlockInv t
  registers : s.phase = .ready → s.registers = t.registers
  unread : s.phase = .ready → ∀ d, s.unread d = t.unread d

end Sys2Proof.Machine
end

