-- ==== Sys2Proof/Certificates/Slice0/Obligations.lean ====
section
/-! DEFINITION. The statements for the provers: what the rules of spec/ say the machine does. -/

open Sys2Proof Sys2Proof.Machine

/-! ### Encoding -/

/-- 30_encoding.md R67, R68, R69, R73: a word is legal in exactly one way, and the decoder drops no bit of it. -/
def Obligations.DecodeInvertsEncode : Prop :=
  ∀ (w : OpWord) (i : Instr), decode w = .ok i ↔ w = encode i

/-- 30_encoding.md R70: (a) to (d), the six patterns and their count, which the spec marks as derived from R67 and R68,
and what an illegal word does on the port that received it. That a device agent's illegal word faults before `INIT` too
is DEDUCED (log entry 9). -/
def Obligations.IllegalWordsFault : Prop :=
  (∀ w : OpWord, (∃ e, decode w = .error e) ↔
    (rsvField w ≠ 0#4 ∨ (portBit w = false ∧ 4 ≤ (opField w).toNat) ∨ (portBit w = true ∧ 2 ≤ (opField w).toNat) ∨
      (rsvField w = 0#4 ∧ dField w ≠ 0#8 ∧
        ((portBit w = false ∧ (opField w = 0#3 ∨ opField w = 2#3 ∨ opField w = 3#3)) ∨
          (portBit w = true ∧ opField w = 1#3))))) ∧
  (∀ w : OpWord, illegalWord w = true ↔ ∃ e, decode w = .error e) ∧
  (∀ w : OpWord, illegalWord w = false ↔ ∃ i, w = encode i) ∧
  (Finset.univ.filter fun n : Fin 65536 => illegalWord (BitVec.ofFin n) = false).card = 516 ∧
  (∀ (t : Turn) (s : State) (w : OpWord), s.wordOf t = some w → illegalWord w = true →
    takeTurn t s =
      if s.phase = .faulted then .fault (.notEnabled t.agent)
      else .next { s with phase := .faulted, faultCode := .illegal })

/-- 30_encoding.md R67, R68, R70 and the words of 95_test_vectors.md: words written out bit by bit. -/
def Obligations.SpecWordsDecode : Prop :=
  decode 0b0000000000000000#16 = .ok .init ∧
  decode 0b0001000001000001#16 = .ok (.writeByte 0x41) ∧
  decode 0b0010000000000000#16 = .ok .readByte ∧
  decode 0b0011000000000000#16 = .ok .available ∧
  decode 0b1000000000001010#16 = .ok (.rxByte 0x0A) ∧
  decode 0b1001000000000000#16 = .ok .txService ∧
  decode 0b0001000100000000#16 = .error .reservedField ∧
  decode 0b0100000000000000#16 = .error .reservedOperation ∧
  decode 0b1010000000000000#16 = .error .reservedOperation ∧
  decode 0b1001000000000001#16 = .error .operandNotZero

/-! ### Turns and the step -/

/-- 30_encoding.md R61 and 60_exceptions.md R120: the step takes the turn placed from outside (the model's agenda, log
entry 5), else a free choice among the enabled turns, and runs the operation its word decodes to. -/
def Obligations.StepRunsDecodedInstruction : Prop :=
  (∀ (s : State) (t : Turn) (rest : List Turn), s.agenda = t :: rest →
    s.nextTurn = some (t, { s with agenda := rest })) ∧
  (∀ (s s' : State) (t : Turn), s.agenda = [] → s.nextTurn = some (t, s') →
    t ∈ s.enabledTurns ∧ s' = { s with draws := s.draws + 1 }) ∧
  (∀ (s s' : State) (t : Turn) (w : OpWord) (i : Instr), s.nextTurn = some (t, s') → s'.wordOf t = some w →
    decode w = .ok i → i.issuer = t.agent → step s = exec i s')

/-- 00_scope.md R8, 60_exceptions.md R120: with no turn placed, the machine goes on whenever an agent is enabled,
and stops only when none is (how the model schedules is its own choice, log entry 5). -/
def Obligations.FreeScheduleTakesAnEnabledTurn : Prop :=
  ∀ s : State, s.agenda = [] →
    ((∃ a, s.enabled a = true) → ∃ t, step s = .next t) ∧
    ((∀ a, s.enabled a = false) → step s = .fault .nothingEnabled)

/-- 00_scope.md R13 with 40_host_port.md R90, 41_device_port.md R98, R101 and 60_exceptions.md R117: an operation
answers a next state exactly where its agent is enabled, and otherwise the agent has no step, which the model answers
with a named stop (log entry 7). Nothing is refused. -/
def Obligations.OperationStepsExactlyWhenEnabled : Prop :=
  ∀ (i : Instr) (s : State),
    ((i.issuer = .host ∧ s.phase ≠ .faulted) ∨ (i.issuer = .rxi ∧ s.phase = .ready) ∨
        (i.issuer = .txi ∧ s.phase = .ready ∧ s.txie = true) → ∃ t, exec i s = .next t) ∧
    (¬((i.issuer = .host ∧ s.phase ≠ .faulted) ∨ (i.issuer = .rxi ∧ s.phase = .ready) ∨
        (i.issuer = .txi ∧ s.phase = .ready ∧ s.txie = true)) → exec i s = .fault (.notEnabled i.issuer))

/-- 60_exceptions.md R117. -/
def Obligations.FaultedBlockHasNoStep : Prop :=
  ∀ s : State, s.phase = .faulted →
    (∀ t : Turn, takeTurn t s = .fault (.notEnabled t.agent)) ∧
    (∀ i : Instr, exec i s = .fault (.notEnabled i.issuer)) ∧
    (∀ a, s.enabled a = false) ∧ (∀ t, step s ≠ .next t) ∧
    ¬EndsSuccessfully s ∧ (BlockInv s → s.faultCode ≠ .noFault)

/-! ### Faults -/

/-- 40_host_port.md R77: the host step, check by check. -/
def Obligations.HostStepChecksInOrder : Prop :=
  ∀ (s : State) (w : OpWord), s.program[s.pc]? = some w →
    if s.phase = .faulted then takeTurn .host s = .fault (.notEnabled .host)
    else if illegalWord w = true then takeTurn .host s = .next { s with phase := .faulted, faultCode := .illegal }
    else if w.getLsbD 15 = true then takeTurn .host s = .next { s with phase := .faulted, faultCode := .port }
    else if s.phase = .uninit ∧ opField w ≠ 0#3 then
      takeTurn .host s = .next { s with phase := .faulted, faultCode := .uninit }
    else ∃ i t, decode w = .ok i ∧ takeTurn .host s = exec i s ∧ exec i s = .next t ∧
      (i = .init ↔ opField w = 0#3) ∧ (i = .writeByte (dField w) ↔ opField w = 1#3) ∧
      (i = .readByte ↔ opField w = 2#3) ∧ (i = .available ↔ opField w = 3#3) ∧
      t.pc = if t.phase = .faulted then s.pc else s.pc + 1

/-- 60_exceptions.md R111: a turn that enters `FAULTED` changes `phase` and `fault_code` and nothing else. -/
def Obligations.FaultsArePreciseAndFinal : Prop :=
  (∀ (s : State) (c : FaultCode), s.raiseFault c = { s with phase := .faulted, faultCode := c }) ∧
  (∀ (t : Turn) (s s' : State), takeTurn t s = .next s' → s'.phase = .faulted →
    s.phase ≠ .faulted ∧ ∃ c, c ≠ .noFault ∧ s' = { s with phase := .faulted, faultCode := c }) ∧
  (∀ (t : Turn) (s s' : State), s.phase = .faulted → takeTurn t s ≠ .next s')

/-- 60_exceptions.md R116, R121: a device agent's own event raises no fault and leaves the host alone. -/
def Obligations.DeviceEventsRaiseNoFault : Prop :=
  ∀ (t : Turn) (s s' : State), t.ownEvent = true → takeTurn t s = .next s' →
    s'.phase = s.phase ∧ s'.faultCode = s.faultCode ∧ s'.pc = s.pc ∧ s'.program = s.program ∧
    s'.results = s.results

/-- 60_exceptions.md R110. -/
def Obligations.OperationsBeforeInitFault : Prop :=
  ∀ (s : State) (i : Instr), s.phase = .uninit → i.issuer = .host → i ≠ .init →
    exec i s = .next { s with phase := .faulted, faultCode := .uninit }

/-- 60_exceptions.md R112. -/
def Obligations.SecondInitFaults : Prop :=
  ∀ s : State, s.phase = .ready → exec .init s = .next { s with phase := .faulted, faultCode := .reinit }

/-- 30_encoding.md R71: a legal word on another port, or from the other device agent. That a device agent's foreign word
faults before `INIT` too is DEDUCED (log entry 9). -/
def Obligations.PortViolationFaults : Prop :=
  ∀ (t : Turn) (s : State) (w : OpWord) (i : Instr), s.wordOf t = some w → decode w = .ok i →
    t.agent ≠ i.issuer → s.phase ≠ .faulted →
    takeTurn t s = .next { s with phase := .faulted, faultCode := .port }

/-! ### INIT -/

/-- 10_state.md R41, 40_host_port.md R78: the operating state, with nothing else changed but `pc`. -/
def Obligations.InitGivesOperatingState : Prop :=
  ∀ s : State, s.phase = .uninit → ∃ t, exec .init s = .next t ∧
    t = { s with phase := .ready, rxIn := 0, rxOut := 0, txIn := 0, txOut := 0, txie := false, pc := s.pc + 1 } ∧
    (∀ d, t.isEmpty d = true ∧ t.occ d = 0) ∧ t.txState = .idle ∧ (∀ d a, t.cell d a = s.cell d a)

/-- 70_reset_and_hazards.md R132, R134: only `INIT`, or a fault, leads out of `UNINIT`, and nothing leads back. -/
def Obligations.OnlyInitLeavesUninit : Prop :=
  ∀ (t : Turn) (s s' : State), takeTurn t s = .next s' →
    (s.phase = .uninit → s'.phase ≠ .uninit →
      s'.phase = .faulted ∨ (s.operationOf t = some .init ∧ s'.phase = .ready)) ∧
    (s.phase ≠ .uninit → s'.phase ≠ .uninit)

/-! ### WRITE_BYTE -/

/-- 40_host_port.md R79: its word, before `INIT`, on a full TX FIFO, and else. -/
def Obligations.WriteByteMeaning : Prop :=
  ∀ (b : Byte) (s : State),
    encode (.writeByte b) = 0x10#8 ++ b ∧
    (s.phase = .uninit → exec (.writeByte b) s = .next { s with phase := .faulted, faultCode := .uninit }) ∧
    (s.phase = .ready → s.occ .tx = s.params.cap .tx → exec (.writeByte b) s = .next { s with pc := s.pc + 1 }) ∧
    (s.phase = .ready → s.occ .tx ≠ s.params.cap .tx → exec (.writeByte b) s = .next
      { s with
        txBuf := s.txBuf.write (s.txIn % 2 ^ s.params.kTx) b
        txIn := (s.txIn + 1) % 2 ^ s.params.w .tx
        txie := true
        pc := s.pc + 1 })

/-- 10_state.md R29, R34, 20_memory.md R44, R45: what `WRITE_BYTE` leaves alone, byte by byte and register by
register. -/
def Obligations.WriteByteFrame : Prop :=
  ∀ (b : Byte) (s t : State), s.phase = .ready → exec (.writeByte b) s = .next t →
    (∀ a, t.cell .tx a = if s.isFull .tx = false ∧ a = s.inSlot .tx then b else s.cell .tx a) ∧
    (∀ a, t.cell .rx a = s.cell .rx a) ∧
    t.phase = s.phase ∧ t.faultCode = s.faultCode ∧ t.rxIn = s.rxIn ∧ t.rxOut = s.rxOut ∧ t.txOut = s.txOut ∧
    (s.isFull .tx = true → t.txIn = s.txIn ∧ t.txie = s.txie) ∧
    t.txline = s.txline ∧ t.results = s.results ∧ t.params = s.params ∧ t.program = s.program ∧
    t.agenda = s.agenda ∧ t.draws = s.draws

/-- 40_host_port.md R79 corner case (c), 10_state.md R26: an accepted byte raises the occupancy by exactly one, so a
write at `CAP_TX - 1` fills the FIFO and the next write is dropped. -/
def Obligations.AcceptedWriteFillsTheFifo : Prop :=
  ∀ (b c : Byte) (s t : State), s.phase = .ready → s.txIn < 2 ^ s.params.w .tx → s.txOut < 2 ^ s.params.w .tx →
    s.occ .tx < s.params.cap .tx → exec (.writeByte b) s = .next t →
    t.occ .tx = s.occ .tx + 1 ∧
    (s.occ .tx + 1 = s.params.cap .tx →
      t.isFull .tx = true ∧ exec (.writeByte c) t = .next { t with pc := t.pc + 1 })

/-! ### READ_BYTE -/

/-- 40_host_port.md R82: its word, before `INIT`, and on a non-empty RX FIFO, in overrun too. -/
def Obligations.ReadByteReturnsOldest : Prop :=
  encode .readByte = 0x2000#16 ∧ ∀ s : State,
    (s.phase = .uninit → exec .readByte s = .next { s with phase := .faulted, faultCode := .uninit }) ∧
    (s.phase = .ready → s.rxIn ≠ s.rxOut → exec .readByte s = .next
      { s with
        rxOut := (s.rxOut + 1) % 2 ^ s.params.w .rx
        results := s.results ++ [.byte (s.cell .rx (s.rxOut % 2 ^ s.params.kRx))]
        pc := s.pc + 1 })

/-- 40_host_port.md R83. -/
def Obligations.ReadOnEmptyGivesSentinel : Prop :=
  ∀ s : State, s.phase = .ready → s.rxIn = s.rxOut → s.params.rxUdf = .sentinelZero →
    exec .readByte s = .next { s with results := s.results ++ [.byte 0x00], pc := s.pc + 1 }

/-- 40_host_port.md R84: some byte is returned, and no register of the block changes (`draws` is the model's own, log
entry 3). -/
def Obligations.ReadOnEmptyStaleIsFree : Prop :=
  ∀ s : State, s.phase = .ready → s.rxIn = s.rxOut → s.params.rxUdf = .stale →
    ∃ v : Byte, exec .readByte s = .next
      { s with results := s.results ++ [.byte v], draws := s.draws + 1, pc := s.pc + 1 }

/-- 10_state.md R34, 20_memory.md R51: what `READ_BYTE` leaves alone, on an empty FIFO too. -/
def Obligations.ReadByteFrame : Prop :=
  ∀ s t : State, s.phase = .ready → exec .readByte s = .next t →
    (∀ d a, t.cell d a = s.cell d a) ∧
    t.phase = s.phase ∧ t.faultCode = s.faultCode ∧ t.rxIn = s.rxIn ∧ t.txIn = s.txIn ∧ t.txOut = s.txOut ∧
    t.txie = s.txie ∧ t.txline = s.txline ∧ t.params = s.params ∧ t.program = s.program ∧ t.agenda = s.agenda ∧
    (s.rxIn = s.rxOut → t.rxOut = s.rxOut) ∧ ∃ v, t.results = s.results ++ [.byte v]

/-- 40_host_port.md R85, 20_memory.md R52: up to `occ_RX` reads in a row return the slots' contents in slot order, in
overrun too. -/
def Obligations.ReadsReturnSlotsInOrder : Prop :=
  ∀ (n : Nat) (s : State), s.phase = .ready → s.rxIn < 2 ^ s.params.w .rx → s.rxOut < 2 ^ s.params.w .rx →
    n ≤ s.occ .rx → ∃ t, runInstrs (List.replicate n .readByte) s = some t ∧
      t.results = s.results ++ (List.range n).map
        (fun j => Result.byte (s.cell .rx ((s.rxOut + j) % 2 ^ s.params.kRx))) ∧
      t.rxOut = (s.rxOut + n) % 2 ^ s.params.w .rx ∧ t.occ .rx = s.occ .rx - n

/-! ### AVAILABLE -/

/-- 40_host_port.md R86. -/
def Obligations.AvailableReturnsOccupancy : Prop :=
  encode .available = 0x3000#16 ∧ ∀ s : State,
    (s.phase = .uninit → exec .available s = .next { s with phase := .faulted, faultCode := .uninit }) ∧
    (s.phase = .ready →
      exec .available s = .next { s with results := s.results ++ [.count (s.occ .rx)], pc := s.pc + 1 }) ∧
    (s.rxIn < 2 ^ s.params.w .rx → s.rxOut < 2 ^ s.params.w .rx →
      (s.occ .rx = 0 ↔ s.rxIn = s.rxOut) ∧ (s.rxOut + s.occ .rx) % 2 ^ s.params.w .rx = s.rxIn) ∧
    s.occ .rx < 2 ^ s.params.w .rx

/-- 20_memory.md R51: repeated with no other operation in between, `AVAILABLE` returns the same value. -/
def Obligations.AvailableIsIdempotent : Prop :=
  ∀ s t u : State, s.phase = .ready → exec .available s = .next t → exec .available t = .next u →
    (∃ n, t.results = s.results ++ [.count n] ∧ u.results = t.results ++ [.count n]) ∧
    (∀ d a, u.cell d a = s.cell d a) ∧ u.rxIn = s.rxIn ∧ u.rxOut = s.rxOut ∧ u.txIn = s.txIn ∧
    u.txOut = s.txOut ∧ u.txie = s.txie ∧ u.phase = s.phase ∧ u.faultCode = s.faultCode ∧ u.txline = s.txline

/-! ### RX_BYTE -/

/-- 41_device_port.md R95, R96, R98: its word, outside `READY`, dropped, and stored. -/
def Obligations.RxByteMeaning : Prop :=
  ∀ (r : Byte) (s : State),
    encode (.rxByte r) = 0x80#8 ++ r ∧
    (s.phase ≠ .ready → exec (.rxByte r) s = .fault (.notEnabled .rxi)) ∧
    (s.phase = .ready → s.params.rxOvf = .dropNewest → s.occ .rx = s.params.cap .rx →
      exec (.rxByte r) s = .next s) ∧
    (s.phase = .ready → ¬(s.params.rxOvf = .dropNewest ∧ s.occ .rx = s.params.cap .rx) →
      exec (.rxByte r) s = .next
        { s with
          rxBuf := s.rxBuf.write (s.rxIn % 2 ^ s.params.kRx) r
          rxIn := (s.rxIn + 1) % 2 ^ s.params.w .rx })

/-- 10_state.md R29, R34, 41_device_port.md R102: what `RX_BYTE` leaves alone. -/
def Obligations.RxByteFrame : Prop :=
  ∀ (r : Byte) (s t : State), exec (.rxByte r) s = .next t →
    (∀ a, t.cell .rx a = if s.dropsNewest = false ∧ a = s.inSlot .rx then r else s.cell .rx a) ∧
    (∀ a, t.cell .tx a = s.cell .tx a) ∧
    t.phase = s.phase ∧ t.faultCode = s.faultCode ∧ t.rxOut = s.rxOut ∧ t.txIn = s.txIn ∧ t.txOut = s.txOut ∧
    t.txie = s.txie ∧ t.txline = s.txline ∧ t.results = s.results ∧ t.pc = s.pc ∧ t.params = s.params ∧
    t.program = s.program ∧ t.agenda = s.agenda ∧ t.draws = s.draws ∧ (s.dropsNewest = true → t = s)

/-- 41_device_port.md R97: under `OVERWRITE` a full FIFO loses its oldest unread byte first, any FIFO at or past full
loses an unread byte, `rx_out` stays, and the occupancy is exact modulo `2^W_RX`. -/
def Obligations.OverwriteLosesUnreadBytes : Prop :=
  ∀ (r : Byte) (s : State), s.phase = .ready → s.params.rxOvf = .overwrite → s.rxIn < 2 ^ s.params.w .rx →
    s.rxOut < 2 ^ s.params.w .rx → ∃ t, exec (.rxByte r) s = .next t ∧ t.rxOut = s.rxOut ∧
      t.cell .rx (s.inSlot .rx) = r ∧ t.occ .rx = (s.occ .rx + 1) % 2 ^ s.params.w .rx ∧
      (s.params.cap .rx ≤ s.occ .rx → ∃ j, j < s.occ .rx ∧ s.inSlot .rx = s.unreadSlot .rx j) ∧
      (s.occ .rx = s.params.cap .rx → s.inSlot .rx = s.outSlot .rx)

/-- 10_state.md R27, 41_device_port.md R97: `n` unread arrivals under `OVERWRITE` raise the occupancy by `n` modulo
`2^W_RX`, so `2^W_RX` arrivals on an empty FIFO bring it back to empty. -/
def Obligations.UnreadArrivalsWrap : Prop :=
  ∀ (rs : List Byte) (s : State), s.phase = .ready → s.params.rxOvf = .overwrite →
    ∃ t, runInstrs (rs.map .rxByte) s = some t ∧
      t.occ .rx = (s.occ .rx + rs.length) % 2 ^ s.params.w .rx ∧ t.rxOut = s.rxOut

/-! ### TX_SERVICE -/

/-- 41_device_port.md R99: its word, not enabled, on a non-empty and on an empty TX FIFO. -/
def Obligations.TxServiceMeaning : Prop :=
  encode .txService = 0x9000#16 ∧ ∀ s : State,
    (s.phase ≠ .ready ∨ s.txie = false → exec .txService s = .fault (.notEnabled .txi)) ∧
    (s.phase = .ready → s.txie = true → s.txIn ≠ s.txOut → exec .txService s = .next
      { s with
        txOut := (s.txOut + 1) % 2 ^ s.params.w .tx
        txline := s.txline ++ [s.cell .tx (s.txOut % 2 ^ s.params.kTx)]
        txie := decide (s.txIn ≠ (s.txOut + 1) % 2 ^ s.params.w .tx) }) ∧
    (s.phase = .ready → s.txie = true → s.txIn = s.txOut → exec .txService s = .next { s with txie := false })

/-- 41_device_port.md R100, which the spec marks as derived from R99. -/
def Obligations.TxServiceOnEmptyDisarms : Prop :=
  (∀ s : State, s.phase = .ready → s.txie = true → s.isEmpty .tx = true →
    ∃ t, exec .txService s = .next t ∧ t.txline = s.txline ∧ t.txie = false) ∧
  (∀ s : State, Reachable s → s.phase = .ready → ¬(s.txie = true ∧ s.isEmpty .tx = true))

/-- 41_device_port.md R101. -/
def Obligations.BytesLeaveOnlyWhileTransmitting : Prop :=
  (∀ s : State, s.txie = false → exec .txService s = .fault (.notEnabled .txi)) ∧
  (∀ (t : Turn) (s s' : State), takeTurn t s = .next s' →
    s'.txline ≠ s.txline ∨ (s.phase = .ready ∧ s'.txOut ≠ s.txOut) → s.txState = .transmitting)

/-- 41_device_port.md R102. -/
def Obligations.OneByteEachEvent : Prop :=
  (∀ s t : State, exec .txService s = .next t →
    (t.txline = s.txline ∨ t.txline = s.txline ++ [s.oldest .tx]) ∧ ∀ d a, t.cell d a = s.cell d a) ∧
  (∀ (r : Byte) (s t : State), exec (.rxByte r) s = .next t →
    t.txline = s.txline ∧ ∀ d a, (d, a) ≠ (.rx, s.inSlot .rx) → t.cell d a = s.cell d a)

/-- 10_state.md R29, R34: what `TX_SERVICE` leaves alone. -/
def Obligations.TxServiceFrame : Prop :=
  ∀ s t : State, exec .txService s = .next t →
    (∀ d a, t.cell d a = s.cell d a) ∧ t.phase = s.phase ∧ t.faultCode = s.faultCode ∧ t.rxIn = s.rxIn ∧
    t.rxOut = s.rxOut ∧ t.txIn = s.txIn ∧ t.results = s.results ∧ t.pc = s.pc ∧ t.params = s.params ∧
    t.program = s.program ∧ t.agenda = s.agenda ∧ t.draws = s.draws

/-- 41_device_port.md R104, which the spec marks as derived from R79 and R99: the transitions of the TX controller, row
by row, and no others. -/
def Obligations.TxControllerTransitions : Prop :=
  ∀ s : State, BlockInv s → s.phase = .ready →
    (s.txState = .idle → s.occ .tx < s.params.cap .tx ∧ exec .txService s = .fault (.notEnabled .txi)) ∧
    (∀ b, s.occ .tx < s.params.cap .tx → ∃ t, exec (.writeByte b) s = .next t ∧ t.txState = .transmitting ∧
      t.cell .tx (s.inSlot .tx) = b ∧ t.txIn = (s.txIn + 1) % 2 ^ s.params.w .tx) ∧
    (∀ b, s.txState = .transmitting → s.occ .tx = s.params.cap .tx →
      exec (.writeByte b) s = .next { s with pc := s.pc + 1 }) ∧
    (s.txState = .transmitting → 1 < s.occ .tx → ∃ t, exec .txService s = .next t ∧ t.txState = .transmitting ∧
      t.txline = s.txline ++ [s.oldest .tx] ∧ t.txOut = (s.txOut + 1) % 2 ^ s.params.w .tx) ∧
    (s.txState = .transmitting → s.occ .tx = 1 → ∃ t, exec .txService s = .next t ∧ t.txState = .idle ∧
      t.txline = s.txline ++ [s.oldest .tx] ∧ t.txOut = (s.txOut + 1) % 2 ^ s.params.w .tx) ∧
    (∀ (i : Instr) (t : State), (∀ b, i ≠ .writeByte b) → i ≠ .txService → exec i s = .next t →
      t.txState = s.txState) ∧
    (∀ u t : State, u.phase = .uninit → exec .init u = .next t → t.txState = .idle)

/-! ### Who writes what -/

/-- 10_state.md R18, R29, R30, R31, R34: every register, buffer and trace changes by the operations of its
"written by" column alone. -/
def Obligations.EachCellHasItsWriters : Prop :=
  ∀ (i : Instr) (s t : State), exec i s = .next t →
    (t.rxIn ≠ s.rxIn → i = .init ∨ ∃ r, i = .rxByte r) ∧
    (t.rxOut ≠ s.rxOut → i = .init ∨ i = .readByte) ∧
    (t.txIn ≠ s.txIn → i = .init ∨ ∃ b, i = .writeByte b) ∧
    (t.txOut ≠ s.txOut → i = .init ∨ i = .txService) ∧
    (t.txie ≠ s.txie → i = .init ∨ (∃ b, i = .writeByte b ∧ t.txie = true) ∨ (i = .txService ∧ t.txie = false)) ∧
    (t.rxBuf ≠ s.rxBuf → ∃ r, i = .rxByte r) ∧
    (t.txBuf ≠ s.txBuf → ∃ b, i = .writeByte b) ∧
    (t.txline ≠ s.txline → i = .txService) ∧
    (t.results ≠ s.results → i = .readByte ∨ i = .available) ∧
    (t.phase ≠ s.phase → i = .init ∨ t.phase = .faulted) ∧
    (t.faultCode ≠ s.faultCode → t.phase = .faulted)

/-- 10_state.md R34: after `INIT` each pointer has exactly one writing operation, issued by one agent, and `INIT`
writes them only before any device event is enabled. -/
def Obligations.OneWriterForEachPointer : Prop :=
  (∀ (i : Instr) (s t : State), exec i s = .next t →
    (s.phase = .ready →
      (t.rxIn ≠ s.rxIn → ∃ r, i = .rxByte r) ∧ (t.rxOut ≠ s.rxOut → i = .readByte) ∧
      (t.txIn ≠ s.txIn → ∃ b, i = .writeByte b) ∧ (t.txOut ≠ s.txOut → i = .txService)) ∧
    (s.phase = .uninit → t.phase = .ready → i = .init ∧ t.rxIn = 0 ∧ t.rxOut = 0 ∧ t.txIn = 0 ∧ t.txOut = 0 ∧
      s.enabled .rxi = false ∧ s.enabled .txi = false)) ∧
  (∀ (t : Turn) (s s' : State), takeTurn t s = .next s' → s.phase = .ready →
    (s'.rxIn ≠ s.rxIn → t.agent = .rxi) ∧ (s'.rxOut ≠ s.rxOut → t.agent = .host) ∧
    (s'.txIn ≠ s.txIn → t.agent = .host) ∧ (s'.txOut ≠ s.txOut → t.agent = .txi))

/-- 00_scope.md R5, 10_state.md R32: no step changes a capacity, a policy, the bus binding or the host program. The bit
rate is the constant `Config.baud`. -/
def Obligations.ParametersNeverChange : Prop :=
  ∀ s t : State, step s = .next t → t.params = s.params ∧ t.program = s.program

/-- 10_state.md R32, 60_exceptions.md R121, R122: `pc` advances by exactly 1 after a host operation that does not
fault, and nothing else writes it. -/
def Obligations.ProgramCounterAdvancesByOne : Prop :=
  ∀ (t : Turn) (s s' : State), takeTurn t s = .next s' →
    s'.pc = if t.agent = .host ∧ s'.phase ≠ .faulted then s.pc + 1 else s.pc

/-- 10_state.md R39, 40_host_port.md R81, R91: no host operation, and no arrival, shows the TX pointers, `txie`, the
TX buffer or the line to `HOST`: the results, the RX side and the position come out alike. -/
def Obligations.HostCannotObserveTransmitSide : Prop :=
  ∀ (i : Instr) (s s' : State) (txIn txOut : Nat) (txie : Bool) (txBuf : Memory) (txline : List Byte),
    i.issuer ≠ .txi → exec i s = .next s' →
    ∃ t, exec i { s with txIn := txIn, txOut := txOut, txie := txie, txBuf := txBuf, txline := txline } = .next t ∧
      t.results = s'.results ∧ t.pc = s'.pc ∧ t.phase = s'.phase ∧ t.faultCode = s'.faultCode ∧
      t.rxIn = s'.rxIn ∧ t.rxOut = s'.rxOut ∧ t.rxBuf = s'.rxBuf ∧ t.draws = s'.draws

/-! ### Invariants -/

/-- 70_reset_and_hazards.md R131, 10_state.md R40 (with the model's choice for what they leave unspecified, log
entries 1 and 2): power-on reset, and what holds there. -/
def Obligations.PowerOnSatisfiesInvariant : Prop :=
  PowerOn State.reset ∧ BlockInv State.reset ∧ (∀ s : State, PowerOn s → BlockInv s) ∧
  (∀ (s : State) (ready : Bool), PowerOn s → s.irqRx ready = false ∧ s.irqTx ready = false)

/-- 10_state.md R35, R36, R37 and 20_memory.md R49 as one invariant that every step keeps: from every state, reached
or not. -/
def Obligations.EveryStepKeepsInvariant : Prop :=
  ∀ s t : State, BlockInv s → step s = .next t → BlockInv t

/-- 10_state.md R36, which the spec marks as derived from R41, R79 and R99: the TX bound in every reachable state, and
every `tx_buf` access in range. -/
def Obligations.TxOccupancyIsBounded : Prop :=
  ∀ s : State, Reachable s →
    (s.phase = .ready → s.occ .tx ≤ s.params.cap .tx) ∧
    s.inSlot .tx < s.params.cap .tx ∧ s.outSlot .tx < s.params.cap .tx ∧
    s.txBuf.below (s.params.cap .tx) = true

/-- 10_state.md R37, which the spec marks as derived from R41, R79 and R99: armed exactly when the TX FIFO holds a
byte. -/
def Obligations.ArmedExactlyWhenNonEmpty : Prop :=
  ∀ s : State, Reachable s → s.phase = .ready →
    (s.txie = true ↔ 0 < s.occ .tx) ∧ (s.txState = .idle → s.isEmpty .tx = true) ∧
    (s.isEmpty .tx = false → s.txie = true)

/-- 10_state.md R35, which the spec marks as derived from R41, R96 and R82: the RX bound under `DROP_NEWEST`, and none
below `2^W_RX` under `OVERWRITE`. -/
def Obligations.RxOccupancyBounds : Prop :=
  (∀ s : State, Reachable s → s.phase = .ready → s.params.rxOvf = .dropNewest →
    s.occ .rx ≤ s.params.cap .rx) ∧
  (∀ (p : Config.Params) (n : Nat), p.rxOvf = .overwrite → n < 2 ^ p.w .rx →
    ∃ s : State, Reachable s ∧ s.params = p ∧ s.phase = .ready ∧ s.occ .rx = n)

/-- 20_memory.md R49: in a run from a power-on state in which no cell has been written, every unread cell of a
`READY` state has been. -/
def Obligations.UnreadCellsHaveBeenWritten : Prop :=
  ∀ (s₀ s : State) (ts : List Turn), PowerOn s₀ → s₀.rxBuf = [] → s₀.txBuf = [] → runTurns ts s₀ = some s →
    s.phase = .ready → ∀ d j, j < s.occ d → ((s.buf d).read (s.unreadSlot d j)).isSome = true

/-- 70_reset_and_hazards.md R149: a run that ended successfully has an empty TX FIFO, and only `RXI` can still
step. -/
def Obligations.SuccessfulEndIsQuiet : Prop :=
  ∀ s : State, Reachable s → EndsSuccessfully s →
    s.isEmpty .tx = true ∧ takeTurn .host s = .fault (.notEnabled .host) ∧
    takeTurn (.txi (encode .txService)) s = .fault (.notEnabled .txi) ∧
    ∀ r, ∃ t, takeTurn (.rxi (encode (.rxByte r))) s = .next t ∧ EndsSuccessfully t

/-! ### Order and progress -/

/-- 20_memory.md R60, the FIFO law, which the spec marks as derived from R44, R79, R82, R95 and R99, for RX and for
TX. -/
def Obligations.FifoLaw : Prop :=
  ∀ (bs : List Byte) (s : State), BlockInv s → s.phase = .ready →
    (s.isEmpty .rx = true → bs.length ≤ s.params.cap .rx → ∃ u t,
      runInstrs (bs.map .rxByte) s = some u ∧ u.occ .rx = bs.length ∧
      runInstrs (List.replicate bs.length .readByte) u = some t ∧
      t.results = s.results ++ bs.map Result.byte ∧ t.isEmpty .rx = true) ∧
    (s.isEmpty .tx = true → bs.length ≤ s.params.cap .tx → ∃ u t,
      runInstrs (bs.map .writeByte) s = some u ∧ u.occ .tx = bs.length ∧
      runInstrs (List.replicate bs.length .txService) u = some t ∧
      t.txline = s.txline ++ bs ∧ t.isEmpty .tx = true)

/-- 20_memory.md R52, R55 (a): over any schedule, the bytes on the line and the bytes still unread are the bytes
accepted, in acceptance order. -/
def Obligations.TxLineIsAcceptedBytesInOrder : Prop :=
  ∀ (ts : List Turn) (s s' : State), BlockInv s → s.phase = .ready → runTurns ts s = some s' →
    s'.txline ++ s'.unread .tx = s.txline ++ s.unread .tx ++ collect State.acceptedTx ts s

/-- 20_memory.md R52, R55 (b): over any schedule under `DROP_NEWEST`, the stored bytes read and the bytes still unread
are the bytes that arrived and were stored, in arrival order. -/
def Obligations.RxReadsAreArrivalsInOrder : Prop :=
  ∀ (ts : List Turn) (s s' : State), BlockInv s → s.phase = .ready → s.params.rxOvf = .dropNewest →
    runTurns ts s = some s' →
    collect State.takenRx ts s ++ s'.unread .rx = s.unread .rx ++ collect State.acceptedRx ts s

/-- 20_memory.md R55 (c): under `DROP_NEWEST`, a non-zero `AVAILABLE` lasts, whatever runs in between, until that many
bytes have been read. -/
def Obligations.AvailableIsAGuarantee : Prop :=
  ∀ (ts : List Turn) (s s' : State), BlockInv s → s.phase = .ready → s.params.rxOvf = .dropNewest →
    runTurns ts s = some s' → (collect State.takenRx ts s).length < s.occ .rx → s'.isEmpty .rx = false

/-- 41_device_port.md R108, the document's property: `CAP_TX + 1` bytes written with no `TX_SERVICE` between them put
exactly the first `CAP_TX` on the line, and the controller ends idle. -/
def Obligations.CapacityPlusOneWrites : Prop :=
  ∀ (bs : List Byte) (s : State), BlockInv s → s.phase = .ready → s.isEmpty .tx = true →
    bs.length = s.params.cap .tx + 1 → ∃ u t,
      runInstrs (bs.map .writeByte) s = some u ∧ u.occ .tx = s.params.cap .tx ∧
      runInstrs (List.replicate (s.params.cap .tx) .txService) u = some t ∧
      t.txline = s.txline ++ bs.take (s.params.cap .tx) ∧ t.txState = .idle ∧ t.txIn = t.txOut ∧
      exec .txService t = .fault (.notEnabled .txi)

/-- 41_device_port.md R106, R108: in every weakly fair infinite execution, the bytes in the TX FIFO are eventually
emitted, in order. -/
def Obligations.AcceptedBytesAreEventuallyEmitted : Prop :=
  ∀ (turns : Nat → Turn) (states : Nat → State), Execution turns states → WeaklyFair turns states →
    ∀ n, BlockInv (states n) → (states n).phase = .ready →
      ∃ m, n ≤ m ∧ ((states n).txline ++ (states n).unread .tx) <+: (states m).txline

/-- 60_exceptions.md R123: `RX_BYTE` and `TX_SERVICE` touch disjoint state, so their order does not matter. -/
def Obligations.DeviceEventsCommute : Prop :=
  ∀ (r : Byte) (s a b : State), exec (.rxByte r) s = .next a → exec .txService s = .next b →
    ∃ c, exec .txService a = .next c ∧ exec (.rxByte r) b = .next c

/-- 41_device_port.md R93, R94: each interrupt request, with its UART condition up, is raised exactly where its event
is enabled. -/
def Obligations.InterruptSignalsMatchEvents : Prop :=
  ∀ s : State,
    (s.irqTx true = true ↔ ∃ t, exec .txService s = .next t) ∧
    (∀ r, s.irqRx true = true ↔ ∃ t, exec (.rxByte r) s = .next t) ∧
    s.irqTx false = false ∧ s.irqRx false = false

/-- 10_state.md R40, 92_eei_decisions.md D21: what power-on reset leaves unspecified is never observed. Two power-on
states that agree on the rest are `Alike`, every turn of every agent keeps that, with the same registers after every turn
from `READY`, and so every schedule shows the same of both (00_scope.md R17). -/
def Obligations.PowerOnValuesAreUnobservable : Prop :=
  (∀ s t : State, SamePowerOn s t → Alike s t) ∧
  (∀ (u : Turn) (s t : State), Alike s t →
    (∀ s', takeTurn u s = .next s' → ∃ t', takeTurn u t = .next t' ∧ Alike s' t' ∧
      (s.phase = .ready → s'.registers = t'.registers)) ∧
    (∀ t', takeTurn u t = .next t' → ∃ s', takeTurn u s = .next s')) ∧
  (∀ (ts : List Turn) (s t s' : State), SamePowerOn s t → runTurns ts s = some s' →
    ∃ t', runTurns ts t = some t' ∧ t'.observe.results = s'.observe.results ∧
      t'.observe.txline = s'.observe.txline ∧ t'.observe.pc = s'.observe.pc ∧
      t'.observe.registers.phase = s'.observe.registers.phase ∧
      t'.observe.registers.faultCode = s'.observe.registers.faultCode ∧
      (s'.phase = .ready → t'.observe.registers = s'.observe.registers ∧ ∀ d, t'.unread d = s'.unread d))

/-! ### PUTC, results, assembly -/

/-- 30_encoding.md R75, 40_host_port.md R88: the expansion of `PUTC`. -/
def Obligations.PutcExpansion : Prop :=
  putcWords 0x0A = [0x100D, 0x100A] ∧ putcWords 0x0D = [0x100D] ∧
  (∀ b : Byte, b ≠ 0x0A → putc b = [.writeByte b] ∧ putcWords b = [0x1000 ||| b.setWidth 16])

/-- 40_host_port.md R88, R89: `PUTC` of a linefeed with two free slots, with one, and with none, and no `TX_SERVICE`
between the two words. -/
def Obligations.PutcOfLinefeedMayBePartial : Prop :=
  ∀ s : State, BlockInv s → s.phase = .ready → ∃ t, runInstrs (putc 0x0A) s = some t ∧
    t.unread .tx = s.unread .tx ++
      (if s.occ .tx + 2 ≤ s.params.cap .tx then [0x0D, 0x0A]
       else if s.occ .tx + 1 = s.params.cap .tx then [0x0D] else [])

/-- 30_encoding.md R76: in a bus register at least as wide, a result is zero-extended. -/
def Obligations.ResultsAreZeroExtended : Prop :=
  ∀ (p : Config.Params) (r : Result), r.width p ≤ (r.register p).width → r.number < 2 ^ r.width p →
    ∃ v, r.onBus p = some v ∧ v.toNat = r.number

/-- 30_encoding.md R74: the rule's own examples of assembly lines, and a comment line (log entry 10). -/
def Obligations.AssemblyExamplesOfTheSpec : Prop :=
  assembleLine ['I', 'N', 'I', 'T'] = some (none, [.init]) ∧
  assembleLine ['W', 'R', 'I', 'T', 'E', '_', 'B', 'Y', 'T', 'E', ' ', '0', 'x', '4', '1'] =
    some (none, [.writeByte 0x41]) ∧
  assembleLine ['W', 'R', 'I', 'T', 'E', '_', 'B', 'Y', 'T', 'E', ' ', '\'', 'A', '\''] =
    some (none, [.writeByte 0x41]) ∧
  assembleLine ['R', 'E', 'A', 'D', '_', 'B', 'Y', 'T', 'E'] = some (none, [.readByte]) ∧
  assembleLine ['A', 'V', 'A', 'I', 'L', 'A', 'B', 'L', 'E'] = some (none, [.available]) ∧
  assembleLine ['R', 'X', '_', 'B', 'Y', 'T', 'E', ' ', '0', 'x', '0', 'A'] = some (none, [.rxByte 0x0A]) ∧
  assembleLine ['T', 'X', '_', 'S', 'E', 'R', 'V', 'I', 'C', 'E'] = some (none, [.txService]) ∧
  assembleLine ['T', 'X', 'I', ':', ' ', 'T', 'X', '_', 'S', 'E', 'R', 'V', 'I', 'C', 'E', ' ', ';', ' ', 'x'] =
    some (some .txi, [.txService]) ∧
  assembleLine [';', ' ', 'I', 'N', 'I', 'T'] = some (none, [])
end

