-- ==== Sys2Proof/Laws/Decode.lean ====
section
/-! SUPPORT. The fields of an operation word: packing and unpacking (spec/30_encoding.md R62 to R66). -/

namespace Sys2Proof

/-- The bits of a packed word, field by field. -/
theorem getLsbD_packWord (p : BitVec 1) (op : BitVec 3) (d : Byte) (k : Nat) :
    (packWord p op d).getLsbD k =
      if k < 8 then d.getLsbD k else if k < 12 then false else if k < 15 then op.getLsbD (k - 12)
      else p.getLsbD (k - 15) := by
  have h : ∀ v : BitVec (1 + 3 + 4 + 8), v = p ++ op ++ 0#4 ++ d → v.getLsbD k =
      if k < 8 then d.getLsbD k else if k < 12 then false else if k < 15 then op.getLsbD (k - 12)
      else p.getLsbD (k - 15) := by
    rintro v rfl
    rw [BitVec.getLsbD_append, BitVec.getLsbD_append, BitVec.getLsbD_append, BitVec.getLsbD_zero]
    split_ifs <;> first | rfl | omega
  exact h _ rfl

@[simp] theorem portBit_packWord (p : BitVec 1) (op : BitVec 3) (d : Byte) :
    portBit (packWord p op d) = p.getLsbD 0 := by
  rw [portBit, getLsbD_packWord]; rfl

@[simp] theorem opField_packWord (p : BitVec 1) (op : BitVec 3) (d : Byte) : opField (packWord p op d) = op := by
  apply BitVec.eq_of_getLsbD_eq
  intro k hk
  rw [opField, BitVec.getLsbD_extractLsb', getLsbD_packWord, if_neg (by omega), if_neg (by omega),
    if_pos (by omega), Nat.add_sub_cancel_left]
  simp [hk]

@[simp] theorem rsvField_packWord (p : BitVec 1) (op : BitVec 3) (d : Byte) : rsvField (packWord p op d) = 0#4 := by
  apply BitVec.eq_of_getLsbD_eq
  intro k hk
  rw [rsvField, BitVec.getLsbD_extractLsb', getLsbD_packWord, if_neg (by omega), if_pos (by omega)]
  simp

@[simp] theorem dField_packWord (p : BitVec 1) (op : BitVec 3) (d : Byte) : dField (packWord p op d) = d := by
  apply BitVec.eq_of_getLsbD_eq
  intro k hk
  rw [dField, BitVec.getLsbD_extractLsb', getLsbD_packWord, if_pos (by omega), Nat.zero_add]
  simp [hk]

/-- A word whose reserved field is zero is packed from its own fields. -/
theorem packWord_fields {w : OpWord} (h : rsvField w = 0#4) :
    packWord (BitVec.ofBool (portBit w)) (opField w) (dField w) = w := by
  apply BitVec.eq_of_getLsbD_eq
  intro k hk
  rw [getLsbD_packWord]
  split_ifs with h8 h12 h15
  · simp [dField, h8]
  · have hr := congrArg (fun v : BitVec 4 => v.getLsbD (k - 8)) h
    simp only [rsvField, BitVec.getLsbD_extractLsb', show 8 + (k - 8) = k by omega] at hr
    simpa [show k - 8 < 4 by omega] using hr.symm
  · simp [opField, show k - 12 < 3 by omega, show 12 + (k - 12) = k by omega]
  · have hk15 : k = 15 := by omega
    subst hk15
    simp [portBit]

end Sys2Proof
end

