-- ==== Sys2Proof/Laws/Memory.lean ====
section
/-! SUPPORT. The byte arrays: a read after a write, and the canonical form that every write keeps. -/

namespace Sys2Proof.Machine

@[simp] theorem Memory.read_nil (a : Nat) : Memory.read [] a = none := rfl

@[simp] theorem Memory.wf_nil : Memory.wf [] = true := rfl

@[simp] theorem Memory.below_nil (n : Nat) : Memory.below n [] = true := rfl

theorem Memory.read_cons (x a : Nat) (b : Byte) (m : Memory) :
    Memory.read ((x, b) :: m) a = if x = a then some b else m.read a := rfl

theorem Memory.wf_cons {c : Host.Cell} {m : Memory} (h : Memory.wf (c :: m) = true) : m.wf = true := by
  cases m with
  | nil => rfl
  | cons e m =>
    obtain ⟨x, b⟩ := c
    obtain ⟨y, v⟩ := e
    simp only [Memory.wf, Bool.and_eq_true] at h
    exact h.2

/-- In canonical form the head's address is below every other one, so a lower address is not listed. -/
theorem Memory.read_below_head {x a : Nat} {b : Byte} {m : Memory} (h : Memory.wf ((x, b) :: m) = true)
    (hlt : a < x) : Memory.read ((x, b) :: m) a = none := by
  induction m generalizing x b with
  | nil => simp [Memory.read_cons, Nat.ne_of_gt hlt]
  | cons e m ih =>
    obtain ⟨y, v⟩ := e
    have hxy : x < y := by
      simp only [Memory.wf, Bool.and_eq_true, decide_eq_true_eq] at h
      exact h.1
    rw [Memory.read_cons, if_neg (Nat.ne_of_gt hlt)]
    exact ih (Memory.wf_cons h) (Nat.lt_trans hlt hxy)

theorem Memory.read_head_tail {x : Nat} {b : Byte} {m : Memory} (h : Memory.wf ((x, b) :: m) = true) :
    Memory.read m x = none := by
  cases m with
  | nil => rfl
  | cons e m =>
    obtain ⟨y, v⟩ := e
    have hxy : x < y := by
      simp only [Memory.wf, Bool.and_eq_true, decide_eq_true_eq] at h
      exact h.1
    exact Memory.read_below_head (Memory.wf_cons h) hxy

/-- A read after a write: the byte written, and every other cell as before. -/
theorem Memory.read_write (m : Memory) (a x : Nat) (v : Byte) :
    (m.write a v).read x = if x = a then some v else m.read x := by
  induction m with
  | nil => simp only [Memory.write, Memory.read_cons, Memory.read_nil, eq_comm]
  | cons c m ih =>
    obtain ⟨y, b⟩ := c
    rcases Nat.lt_trichotomy a y with h | h | h
    · simp only [Memory.write, if_pos h, Memory.read_cons]
      split_ifs <;> first | rfl | omega
    · simp only [Memory.write, h, lt_irrefl, if_false, if_true, Memory.read_cons]
      split_ifs <;> first | rfl | omega
    · have h1 : ¬a < y := by omega
      have h2 : ¬a = y := by omega
      simp only [Memory.write, if_neg h1, if_neg h2, Memory.read_cons, ih]
      split_ifs <;> first | rfl | omega

@[simp] theorem Memory.read_write_same (m : Memory) (a : Nat) (v : Byte) : (m.write a v).read a = some v := by
  simp [Memory.read_write]

theorem Memory.read_write_other (m : Memory) {a x : Nat} (v : Byte) (h : x ≠ a) :
    (m.write a v).read x = m.read x := by
  simp [Memory.read_write, h]

theorem Memory.wf_cons_cons (x y : Nat) (b v : Byte) (m : Memory) :
    Memory.wf ((x, b) :: (y, v) :: m) = true ↔ x < y ∧ Memory.wf ((y, v) :: m) = true := by
  simp [Memory.wf]

/-- In canonical form the byte of the head does not matter. -/
theorem Memory.wf_cons_congr {x : Nat} {b v : Byte} {m : Memory} (h : Memory.wf ((x, b) :: m) = true) :
    Memory.wf ((x, v) :: m) = true := by
  cases m with
  | nil => rfl
  | cons e m =>
    obtain ⟨y, w⟩ := e
    exact (Memory.wf_cons_cons ..).2 ((Memory.wf_cons_cons ..).1 h)

/-- A write above the head of a canonical memory keeps head and form. -/
theorem Memory.write_wf_above {x : Nat} {b : Byte} {m : Memory} (h : Memory.wf ((x, b) :: m) = true) {a : Nat}
    (ha : x < a) (v : Byte) : Memory.wf ((x, b) :: m.write a v) = true := by
  induction m generalizing x b with
  | nil => exact (Memory.wf_cons_cons ..).2 ⟨ha, rfl⟩
  | cons e m ih =>
    obtain ⟨y, w⟩ := e
    obtain ⟨hxy, hm⟩ := (Memory.wf_cons_cons ..).1 h
    rcases Nat.lt_trichotomy a y with hy | hy | hy
    · simp only [Memory.write, if_pos hy]
      exact (Memory.wf_cons_cons ..).2 ⟨ha, (Memory.wf_cons_cons ..).2 ⟨hy, hm⟩⟩
    · subst hy
      simp only [Memory.write, lt_irrefl, if_false, if_true]
      exact (Memory.wf_cons_cons ..).2 ⟨hxy, Memory.wf_cons_congr hm⟩
    · simp only [Memory.write, if_neg (Nat.lt_asymm hy), if_neg (Nat.ne_of_gt hy)]
      exact (Memory.wf_cons_cons ..).2 ⟨hxy, ih hm hy⟩

/-- Every write keeps the canonical form. -/
theorem Memory.write_wf {m : Memory} (h : m.wf = true) (a : Nat) (v : Byte) : (m.write a v).wf = true := by
  cases m with
  | nil => rfl
  | cons c m =>
    obtain ⟨y, b⟩ := c
    rcases Nat.lt_trichotomy a y with hy | hy | hy
    · simp only [Memory.write, if_pos hy]
      exact (Memory.wf_cons_cons ..).2 ⟨hy, h⟩
    · subst hy
      simp only [Memory.write, lt_irrefl, if_false, if_true]
      exact Memory.wf_cons_congr h
    · simp only [Memory.write, if_neg (Nat.lt_asymm hy), if_neg (Nat.ne_of_gt hy)]
      exact Memory.write_wf_above h hy v

theorem Memory.below_cons (n x : Nat) (b : Byte) (m : Memory) :
    Memory.below n ((x, b) :: m) = true ↔ x < n ∧ m.below n = true := by
  simp only [Memory.below, List.all_cons, Bool.and_eq_true, decide_eq_true_eq]

/-- A write below `n` keeps every listed cell below `n`. -/
theorem Memory.write_below {m : Memory} {n a : Nat} (h : m.below n = true) (ha : a < n) (v : Byte) :
    (m.write a v).below n = true := by
  induction m with
  | nil => exact (Memory.below_cons ..).2 ⟨ha, rfl⟩
  | cons c m ih =>
    obtain ⟨y, b⟩ := c
    obtain ⟨hy, hm⟩ := (Memory.below_cons ..).1 h
    unfold Memory.write
    split_ifs
    · exact (Memory.below_cons ..).2 ⟨ha, h⟩
    · exact (Memory.below_cons ..).2 ⟨ha, hm⟩
    · exact (Memory.below_cons ..).2 ⟨hy, ih hm⟩

/-- Equal reads, equal data: a memory in canonical form is determined by what it reads as. -/
theorem Memory.ext_of_read {m n : Memory} (hm : m.wf = true) (hn : n.wf = true)
    (h : ∀ a, m.read a = n.read a) : m = n := by
  induction m generalizing n with
  | nil =>
    cases n with
    | nil => rfl
    | cons c n =>
      obtain ⟨y, b⟩ := c
      have := h y
      simp [Memory.read_cons] at this
  | cons c m ih =>
    obtain ⟨x, b⟩ := c
    cases n with
    | nil =>
      have := h x
      simp [Memory.read_cons] at this
    | cons e n =>
      obtain ⟨y, v⟩ := e
      have hxy : x = y := by
        rcases Nat.lt_trichotomy x y with hlt | heq | hgt
        · have := h x
          rw [Memory.read_below_head hn hlt] at this
          simp [Memory.read_cons] at this
        · exact heq
        · have := h y
          rw [Memory.read_below_head hm hgt] at this
          simp [Memory.read_cons] at this
      subst hxy
      have hb : b = v := by
        have := h x
        simpa [Memory.read_cons] using this
      subst hb
      congr 1
      refine ih (Memory.wf_cons hm) (Memory.wf_cons hn) fun a => ?_
      by_cases ha : x = a
      · subst ha
        rw [Memory.read_head_tail hm, Memory.read_head_tail hn]
      · have := h a
        simpa [Memory.read_cons, ha] using this

end Sys2Proof.Machine
end

