-- ==== Sys2Proof/Laws/Modular.lean ====
section
/-! SUPPORT. Modular arithmetic of the pointers (spec/00_scope.md R11): ranges, inverses, slots. -/

namespace Sys2Proof.Machine

theorem two_pow_pos (w : Nat) : 0 < 2 ^ w := Nat.pow_pos (by decide)

theorem addMod_lt (w a b : Nat) : addMod w a b < 2 ^ w := Nat.mod_lt _ (two_pow_pos w)

theorem subMod_lt (w a b : Nat) : subMod w a b < 2 ^ w := Nat.mod_lt _ (two_pow_pos w)

theorem slotOf_lt (k p : Nat) : slotOf k p < 2 ^ k := Nat.mod_lt _ (two_pow_pos k)

/-- `a -_W b` is the difference modulo `2^W`, for any numbers. -/
theorem subMod_int (w a b : Nat) : ((subMod w a b : Nat) : Int) = ((a : Int) - b) % 2 ^ w := by
  unfold subMod
  have hb : b % 2 ^ w ≤ 2 ^ w := (Nat.mod_lt _ (two_pow_pos w)).le
  push_cast [Nat.cast_sub hb]
  rw [show (a : Int) + (2 ^ w - (b : Int) % 2 ^ w) = (a - (b : Int) % 2 ^ w) + 2 ^ w by ring,
    Int.add_emod_right, Int.sub_emod_emod]

/-- In range, the difference is a subtraction with at most one wrap. -/
theorem subMod_of_lt {w a b : Nat} (ha : a < 2 ^ w) (hb : b < 2 ^ w) :
    subMod w a b = if b ≤ a then a - b else a + 2 ^ w - b := by
  unfold subMod
  rw [Nat.mod_eq_of_lt hb]
  split_ifs with h
  · rw [show a + (2 ^ w - b) = (a - b) + 2 ^ w by omega, Nat.add_mod_right, Nat.mod_eq_of_lt (by omega)]
  · rw [show a + (2 ^ w - b) = a + 2 ^ w - b by omega, Nat.mod_eq_of_lt (by omega)]

/-- In range, a sum is an addition with at most one wrap. -/
theorem addMod_of_lt {w a b : Nat} (ha : a < 2 ^ w) (hb : b < 2 ^ w) :
    addMod w a b = if a + b < 2 ^ w then a + b else a + b - 2 ^ w := by
  unfold addMod
  split_ifs with h
  · exact Nat.mod_eq_of_lt h
  · rw [show a + b = (a + b - 2 ^ w) + 2 ^ w by omega, Nat.add_mod_right, Nat.mod_eq_of_lt (by omega)]
    omega

theorem subMod_eq_zero_iff {w a b : Nat} (ha : a < 2 ^ w) (hb : b < 2 ^ w) : subMod w a b = 0 ↔ a = b := by
  rw [subMod_of_lt ha hb]; split_ifs <;> omega

/-- What the difference adds back to. -/
theorem addMod_subMod {w a b : Nat} (ha : a < 2 ^ w) (hb : b < 2 ^ w) : addMod w b (subMod w a b) = a := by
  rw [addMod_of_lt hb (subMod_lt w a b), subMod_of_lt ha hb]; split_ifs <;> omega

@[simp] theorem addMod_zero {w a : Nat} (ha : a < 2 ^ w) : addMod w a 0 = a := Nat.mod_eq_of_lt ha

theorem addMod_addMod (w a b c : Nat) : addMod w (addMod w a b) c = addMod w a (b + c) := by
  simp [addMod, Nat.add_assoc]

/-- A producer raises the difference by one, modulo `2^W`. -/
theorem subMod_addMod_one (w a b : Nat) : subMod w (addMod w a 1) b = (subMod w a b + 1) % 2 ^ w := by
  simp only [subMod, addMod, Nat.mod_add_mod]
  congr 1
  omega

/-- A consumer lowers a non-zero difference by one. -/
theorem subMod_addMod_right {w a b : Nat} (ha : a < 2 ^ w) (hb : b < 2 ^ w) (h : a ≠ b) :
    subMod w a (addMod w b 1) = subMod w a b - 1 := by
  rcases Nat.lt_or_ge 1 (2 ^ w) with h1 | h1
  · rw [subMod_of_lt ha (addMod_lt w b 1), addMod_of_lt hb h1, subMod_of_lt ha hb]
    split_ifs <;> omega
  · omega

/-- The slot of a wrapped pointer is the slot of the unwrapped one. -/
theorem slotOf_addMod {k w : Nat} (h : k ≤ w) (a b : Nat) : slotOf k (addMod w a b) = (a + b) % 2 ^ k :=
  Nat.mod_mod_of_dvd _ (Nat.pow_dvd_pow 2 h)

end Sys2Proof.Machine
end

