-- ==== Sys2Proof/Laws/State.lean ====
section
/-! SUPPORT. What each update of the state does to each field. -/

namespace Sys2Proof.Machine

@[simp] theorem State.writeCell_params (s : State) (d : Fifo) (a : Nat) (v : Byte) : (s.writeCell d a v).params = s.params := by cases d <;> rfl
@[simp] theorem State.writeCell_phase (s : State) (d : Fifo) (a : Nat) (v : Byte) : (s.writeCell d a v).phase = s.phase := by cases d <;> rfl
@[simp] theorem State.writeCell_faultCode (s : State) (d : Fifo) (a : Nat) (v : Byte) : (s.writeCell d a v).faultCode = s.faultCode := by cases d <;> rfl
@[simp] theorem State.writeCell_rxIn (s : State) (d : Fifo) (a : Nat) (v : Byte) : (s.writeCell d a v).rxIn = s.rxIn := by cases d <;> rfl
@[simp] theorem State.writeCell_rxOut (s : State) (d : Fifo) (a : Nat) (v : Byte) : (s.writeCell d a v).rxOut = s.rxOut := by cases d <;> rfl
@[simp] theorem State.writeCell_txIn (s : State) (d : Fifo) (a : Nat) (v : Byte) : (s.writeCell d a v).txIn = s.txIn := by cases d <;> rfl
@[simp] theorem State.writeCell_txOut (s : State) (d : Fifo) (a : Nat) (v : Byte) : (s.writeCell d a v).txOut = s.txOut := by cases d <;> rfl
@[simp] theorem State.writeCell_txie (s : State) (d : Fifo) (a : Nat) (v : Byte) : (s.writeCell d a v).txie = s.txie := by cases d <;> rfl
@[simp] theorem State.writeCell_rx_rxBuf (s : State) (a : Nat) (v : Byte) : (s.writeCell .rx a v).rxBuf = s.rxBuf.write a v := rfl
@[simp] theorem State.writeCell_tx_rxBuf (s : State) (a : Nat) (v : Byte) : (s.writeCell .tx a v).rxBuf = s.rxBuf := rfl
@[simp] theorem State.writeCell_tx_txBuf (s : State) (a : Nat) (v : Byte) : (s.writeCell .tx a v).txBuf = s.txBuf.write a v := rfl
@[simp] theorem State.writeCell_rx_txBuf (s : State) (a : Nat) (v : Byte) : (s.writeCell .rx a v).txBuf = s.txBuf := rfl
@[simp] theorem State.writeCell_txline (s : State) (d : Fifo) (a : Nat) (v : Byte) : (s.writeCell d a v).txline = s.txline := by cases d <;> rfl
@[simp] theorem State.writeCell_results (s : State) (d : Fifo) (a : Nat) (v : Byte) : (s.writeCell d a v).results = s.results := by cases d <;> rfl
@[simp] theorem State.writeCell_pc (s : State) (d : Fifo) (a : Nat) (v : Byte) : (s.writeCell d a v).pc = s.pc := by cases d <;> rfl
@[simp] theorem State.writeCell_program (s : State) (d : Fifo) (a : Nat) (v : Byte) : (s.writeCell d a v).program = s.program := by cases d <;> rfl
@[simp] theorem State.writeCell_agenda (s : State) (d : Fifo) (a : Nat) (v : Byte) : (s.writeCell d a v).agenda = s.agenda := by cases d <;> rfl
@[simp] theorem State.writeCell_draws (s : State) (d : Fifo) (a : Nat) (v : Byte) : (s.writeCell d a v).draws = s.draws := by cases d <;> rfl

@[simp] theorem State.advanceIn_params (s : State) (d : Fifo) : (s.advanceIn d).params = s.params := by cases d <;> rfl
@[simp] theorem State.advanceIn_phase (s : State) (d : Fifo) : (s.advanceIn d).phase = s.phase := by cases d <;> rfl
@[simp] theorem State.advanceIn_faultCode (s : State) (d : Fifo) : (s.advanceIn d).faultCode = s.faultCode := by cases d <;> rfl
@[simp] theorem State.advanceIn_rx_rxIn (s : State) : (s.advanceIn .rx).rxIn = addMod (s.params.w .rx) s.rxIn 1 := rfl
@[simp] theorem State.advanceIn_tx_rxIn (s : State) : (s.advanceIn .tx).rxIn = s.rxIn := rfl
@[simp] theorem State.advanceIn_rxOut (s : State) (d : Fifo) : (s.advanceIn d).rxOut = s.rxOut := by cases d <;> rfl
@[simp] theorem State.advanceIn_tx_txIn (s : State) : (s.advanceIn .tx).txIn = addMod (s.params.w .tx) s.txIn 1 := rfl
@[simp] theorem State.advanceIn_rx_txIn (s : State) : (s.advanceIn .rx).txIn = s.txIn := rfl
@[simp] theorem State.advanceIn_txOut (s : State) (d : Fifo) : (s.advanceIn d).txOut = s.txOut := by cases d <;> rfl
@[simp] theorem State.advanceIn_txie (s : State) (d : Fifo) : (s.advanceIn d).txie = s.txie := by cases d <;> rfl
@[simp] theorem State.advanceIn_rxBuf (s : State) (d : Fifo) : (s.advanceIn d).rxBuf = s.rxBuf := by cases d <;> rfl
@[simp] theorem State.advanceIn_txBuf (s : State) (d : Fifo) : (s.advanceIn d).txBuf = s.txBuf := by cases d <;> rfl
@[simp] theorem State.advanceIn_txline (s : State) (d : Fifo) : (s.advanceIn d).txline = s.txline := by cases d <;> rfl
@[simp] theorem State.advanceIn_results (s : State) (d : Fifo) : (s.advanceIn d).results = s.results := by cases d <;> rfl
@[simp] theorem State.advanceIn_pc (s : State) (d : Fifo) : (s.advanceIn d).pc = s.pc := by cases d <;> rfl
@[simp] theorem State.advanceIn_program (s : State) (d : Fifo) : (s.advanceIn d).program = s.program := by cases d <;> rfl
@[simp] theorem State.advanceIn_agenda (s : State) (d : Fifo) : (s.advanceIn d).agenda = s.agenda := by cases d <;> rfl
@[simp] theorem State.advanceIn_draws (s : State) (d : Fifo) : (s.advanceIn d).draws = s.draws := by cases d <;> rfl

@[simp] theorem State.advanceOut_params (s : State) (d : Fifo) : (s.advanceOut d).params = s.params := by cases d <;> rfl
@[simp] theorem State.advanceOut_phase (s : State) (d : Fifo) : (s.advanceOut d).phase = s.phase := by cases d <;> rfl
@[simp] theorem State.advanceOut_faultCode (s : State) (d : Fifo) : (s.advanceOut d).faultCode = s.faultCode := by cases d <;> rfl
@[simp] theorem State.advanceOut_rxIn (s : State) (d : Fifo) : (s.advanceOut d).rxIn = s.rxIn := by cases d <;> rfl
@[simp] theorem State.advanceOut_rx_rxOut (s : State) : (s.advanceOut .rx).rxOut = addMod (s.params.w .rx) s.rxOut 1 := rfl
@[simp] theorem State.advanceOut_tx_rxOut (s : State) : (s.advanceOut .tx).rxOut = s.rxOut := rfl
@[simp] theorem State.advanceOut_txIn (s : State) (d : Fifo) : (s.advanceOut d).txIn = s.txIn := by cases d <;> rfl
@[simp] theorem State.advanceOut_tx_txOut (s : State) : (s.advanceOut .tx).txOut = addMod (s.params.w .tx) s.txOut 1 := rfl
@[simp] theorem State.advanceOut_rx_txOut (s : State) : (s.advanceOut .rx).txOut = s.txOut := rfl
@[simp] theorem State.advanceOut_txie (s : State) (d : Fifo) : (s.advanceOut d).txie = s.txie := by cases d <;> rfl
@[simp] theorem State.advanceOut_rxBuf (s : State) (d : Fifo) : (s.advanceOut d).rxBuf = s.rxBuf := by cases d <;> rfl
@[simp] theorem State.advanceOut_txBuf (s : State) (d : Fifo) : (s.advanceOut d).txBuf = s.txBuf := by cases d <;> rfl
@[simp] theorem State.advanceOut_txline (s : State) (d : Fifo) : (s.advanceOut d).txline = s.txline := by cases d <;> rfl
@[simp] theorem State.advanceOut_results (s : State) (d : Fifo) : (s.advanceOut d).results = s.results := by cases d <;> rfl
@[simp] theorem State.advanceOut_pc (s : State) (d : Fifo) : (s.advanceOut d).pc = s.pc := by cases d <;> rfl
@[simp] theorem State.advanceOut_program (s : State) (d : Fifo) : (s.advanceOut d).program = s.program := by cases d <;> rfl
@[simp] theorem State.advanceOut_agenda (s : State) (d : Fifo) : (s.advanceOut d).agenda = s.agenda := by cases d <;> rfl
@[simp] theorem State.advanceOut_draws (s : State) (d : Fifo) : (s.advanceOut d).draws = s.draws := by cases d <;> rfl

@[simp] theorem State.emit_params (s : State) (b : Byte) : (s.emit b).params = s.params := rfl
@[simp] theorem State.emit_phase (s : State) (b : Byte) : (s.emit b).phase = s.phase := rfl
@[simp] theorem State.emit_faultCode (s : State) (b : Byte) : (s.emit b).faultCode = s.faultCode := rfl
@[simp] theorem State.emit_rxIn (s : State) (b : Byte) : (s.emit b).rxIn = s.rxIn := rfl
@[simp] theorem State.emit_rxOut (s : State) (b : Byte) : (s.emit b).rxOut = s.rxOut := rfl
@[simp] theorem State.emit_txIn (s : State) (b : Byte) : (s.emit b).txIn = s.txIn := rfl
@[simp] theorem State.emit_txOut (s : State) (b : Byte) : (s.emit b).txOut = s.txOut := rfl
@[simp] theorem State.emit_txie (s : State) (b : Byte) : (s.emit b).txie = s.txie := rfl
@[simp] theorem State.emit_rxBuf (s : State) (b : Byte) : (s.emit b).rxBuf = s.rxBuf := rfl
@[simp] theorem State.emit_txBuf (s : State) (b : Byte) : (s.emit b).txBuf = s.txBuf := rfl
@[simp] theorem State.emit_txline (s : State) (b : Byte) : (s.emit b).txline = s.txline ++ [b] := rfl
@[simp] theorem State.emit_results (s : State) (b : Byte) : (s.emit b).results = s.results := rfl
@[simp] theorem State.emit_pc (s : State) (b : Byte) : (s.emit b).pc = s.pc := rfl
@[simp] theorem State.emit_program (s : State) (b : Byte) : (s.emit b).program = s.program := rfl
@[simp] theorem State.emit_agenda (s : State) (b : Byte) : (s.emit b).agenda = s.agenda := rfl
@[simp] theorem State.emit_draws (s : State) (b : Byte) : (s.emit b).draws = s.draws := rfl

@[simp] theorem State.deliverResult_params (s : State) (v : Result) : (s.deliverResult v).params = s.params := rfl
@[simp] theorem State.deliverResult_phase (s : State) (v : Result) : (s.deliverResult v).phase = s.phase := rfl
@[simp] theorem State.deliverResult_faultCode (s : State) (v : Result) : (s.deliverResult v).faultCode = s.faultCode := rfl
@[simp] theorem State.deliverResult_rxIn (s : State) (v : Result) : (s.deliverResult v).rxIn = s.rxIn := rfl
@[simp] theorem State.deliverResult_rxOut (s : State) (v : Result) : (s.deliverResult v).rxOut = s.rxOut := rfl
@[simp] theorem State.deliverResult_txIn (s : State) (v : Result) : (s.deliverResult v).txIn = s.txIn := rfl
@[simp] theorem State.deliverResult_txOut (s : State) (v : Result) : (s.deliverResult v).txOut = s.txOut := rfl
@[simp] theorem State.deliverResult_txie (s : State) (v : Result) : (s.deliverResult v).txie = s.txie := rfl
@[simp] theorem State.deliverResult_rxBuf (s : State) (v : Result) : (s.deliverResult v).rxBuf = s.rxBuf := rfl
@[simp] theorem State.deliverResult_txBuf (s : State) (v : Result) : (s.deliverResult v).txBuf = s.txBuf := rfl
@[simp] theorem State.deliverResult_txline (s : State) (v : Result) : (s.deliverResult v).txline = s.txline := rfl
@[simp] theorem State.deliverResult_results (s : State) (v : Result) : (s.deliverResult v).results = s.results ++ [v] := rfl
@[simp] theorem State.deliverResult_pc (s : State) (v : Result) : (s.deliverResult v).pc = s.pc := rfl
@[simp] theorem State.deliverResult_program (s : State) (v : Result) : (s.deliverResult v).program = s.program := rfl
@[simp] theorem State.deliverResult_agenda (s : State) (v : Result) : (s.deliverResult v).agenda = s.agenda := rfl
@[simp] theorem State.deliverResult_draws (s : State) (v : Result) : (s.deliverResult v).draws = s.draws := rfl

@[simp] theorem State.advancePc_params (s : State) : s.advancePc.params = s.params := rfl
@[simp] theorem State.advancePc_phase (s : State) : s.advancePc.phase = s.phase := rfl
@[simp] theorem State.advancePc_faultCode (s : State) : s.advancePc.faultCode = s.faultCode := rfl
@[simp] theorem State.advancePc_rxIn (s : State) : s.advancePc.rxIn = s.rxIn := rfl
@[simp] theorem State.advancePc_rxOut (s : State) : s.advancePc.rxOut = s.rxOut := rfl
@[simp] theorem State.advancePc_txIn (s : State) : s.advancePc.txIn = s.txIn := rfl
@[simp] theorem State.advancePc_txOut (s : State) : s.advancePc.txOut = s.txOut := rfl
@[simp] theorem State.advancePc_txie (s : State) : s.advancePc.txie = s.txie := rfl
@[simp] theorem State.advancePc_rxBuf (s : State) : s.advancePc.rxBuf = s.rxBuf := rfl
@[simp] theorem State.advancePc_txBuf (s : State) : s.advancePc.txBuf = s.txBuf := rfl
@[simp] theorem State.advancePc_txline (s : State) : s.advancePc.txline = s.txline := rfl
@[simp] theorem State.advancePc_results (s : State) : s.advancePc.results = s.results := rfl
@[simp] theorem State.advancePc_pc (s : State) : s.advancePc.pc = s.pc + 1 := rfl
@[simp] theorem State.advancePc_program (s : State) : s.advancePc.program = s.program := rfl
@[simp] theorem State.advancePc_agenda (s : State) : s.advancePc.agenda = s.agenda := rfl
@[simp] theorem State.advancePc_draws (s : State) : s.advancePc.draws = s.draws := rfl

@[simp] theorem State.deliverDraw_params (s : State) : s.deliverDraw.params = s.params := rfl
@[simp] theorem State.deliverDraw_phase (s : State) : s.deliverDraw.phase = s.phase := rfl
@[simp] theorem State.deliverDraw_faultCode (s : State) : s.deliverDraw.faultCode = s.faultCode := rfl
@[simp] theorem State.deliverDraw_rxIn (s : State) : s.deliverDraw.rxIn = s.rxIn := rfl
@[simp] theorem State.deliverDraw_rxOut (s : State) : s.deliverDraw.rxOut = s.rxOut := rfl
@[simp] theorem State.deliverDraw_txIn (s : State) : s.deliverDraw.txIn = s.txIn := rfl
@[simp] theorem State.deliverDraw_txOut (s : State) : s.deliverDraw.txOut = s.txOut := rfl
@[simp] theorem State.deliverDraw_txie (s : State) : s.deliverDraw.txie = s.txie := rfl
@[simp] theorem State.deliverDraw_rxBuf (s : State) : s.deliverDraw.rxBuf = s.rxBuf := rfl
@[simp] theorem State.deliverDraw_txBuf (s : State) : s.deliverDraw.txBuf = s.txBuf := rfl
@[simp] theorem State.deliverDraw_txline (s : State) : s.deliverDraw.txline = s.txline := rfl
@[simp] theorem State.deliverDraw_results (s : State) : s.deliverDraw.results = s.results ++ [.byte (Config.draw s.draws)] := rfl
@[simp] theorem State.deliverDraw_pc (s : State) : s.deliverDraw.pc = s.pc := rfl
@[simp] theorem State.deliverDraw_program (s : State) : s.deliverDraw.program = s.program := rfl
@[simp] theorem State.deliverDraw_agenda (s : State) : s.deliverDraw.agenda = s.agenda := rfl
@[simp] theorem State.deliverDraw_draws (s : State) : s.deliverDraw.draws = s.draws + 1 := rfl

@[simp] theorem State.setTxie_params (s : State) (v : Bool) : (s.setTxie v).params = s.params := rfl
@[simp] theorem State.setTxie_phase (s : State) (v : Bool) : (s.setTxie v).phase = s.phase := rfl
@[simp] theorem State.setTxie_faultCode (s : State) (v : Bool) : (s.setTxie v).faultCode = s.faultCode := rfl
@[simp] theorem State.setTxie_rxIn (s : State) (v : Bool) : (s.setTxie v).rxIn = s.rxIn := rfl
@[simp] theorem State.setTxie_rxOut (s : State) (v : Bool) : (s.setTxie v).rxOut = s.rxOut := rfl
@[simp] theorem State.setTxie_txIn (s : State) (v : Bool) : (s.setTxie v).txIn = s.txIn := rfl
@[simp] theorem State.setTxie_txOut (s : State) (v : Bool) : (s.setTxie v).txOut = s.txOut := rfl
@[simp] theorem State.setTxie_txie (s : State) (v : Bool) : (s.setTxie v).txie = v := rfl
@[simp] theorem State.setTxie_rxBuf (s : State) (v : Bool) : (s.setTxie v).rxBuf = s.rxBuf := rfl
@[simp] theorem State.setTxie_txBuf (s : State) (v : Bool) : (s.setTxie v).txBuf = s.txBuf := rfl
@[simp] theorem State.setTxie_txline (s : State) (v : Bool) : (s.setTxie v).txline = s.txline := rfl
@[simp] theorem State.setTxie_results (s : State) (v : Bool) : (s.setTxie v).results = s.results := rfl
@[simp] theorem State.setTxie_pc (s : State) (v : Bool) : (s.setTxie v).pc = s.pc := rfl
@[simp] theorem State.setTxie_program (s : State) (v : Bool) : (s.setTxie v).program = s.program := rfl
@[simp] theorem State.setTxie_agenda (s : State) (v : Bool) : (s.setTxie v).agenda = s.agenda := rfl
@[simp] theorem State.setTxie_draws (s : State) (v : Bool) : (s.setTxie v).draws = s.draws := rfl

@[simp] theorem State.raiseFault_params (s : State) (c : FaultCode) : (s.raiseFault c).params = s.params := rfl
@[simp] theorem State.raiseFault_phase (s : State) (c : FaultCode) : (s.raiseFault c).phase = .faulted := rfl
@[simp] theorem State.raiseFault_faultCode (s : State) (c : FaultCode) : (s.raiseFault c).faultCode = c := rfl
@[simp] theorem State.raiseFault_rxIn (s : State) (c : FaultCode) : (s.raiseFault c).rxIn = s.rxIn := rfl
@[simp] theorem State.raiseFault_rxOut (s : State) (c : FaultCode) : (s.raiseFault c).rxOut = s.rxOut := rfl
@[simp] theorem State.raiseFault_txIn (s : State) (c : FaultCode) : (s.raiseFault c).txIn = s.txIn := rfl
@[simp] theorem State.raiseFault_txOut (s : State) (c : FaultCode) : (s.raiseFault c).txOut = s.txOut := rfl
@[simp] theorem State.raiseFault_txie (s : State) (c : FaultCode) : (s.raiseFault c).txie = s.txie := rfl
@[simp] theorem State.raiseFault_rxBuf (s : State) (c : FaultCode) : (s.raiseFault c).rxBuf = s.rxBuf := rfl
@[simp] theorem State.raiseFault_txBuf (s : State) (c : FaultCode) : (s.raiseFault c).txBuf = s.txBuf := rfl
@[simp] theorem State.raiseFault_txline (s : State) (c : FaultCode) : (s.raiseFault c).txline = s.txline := rfl
@[simp] theorem State.raiseFault_results (s : State) (c : FaultCode) : (s.raiseFault c).results = s.results := rfl
@[simp] theorem State.raiseFault_pc (s : State) (c : FaultCode) : (s.raiseFault c).pc = s.pc := rfl
@[simp] theorem State.raiseFault_program (s : State) (c : FaultCode) : (s.raiseFault c).program = s.program := rfl
@[simp] theorem State.raiseFault_agenda (s : State) (c : FaultCode) : (s.raiseFault c).agenda = s.agenda := rfl
@[simp] theorem State.raiseFault_draws (s : State) (c : FaultCode) : (s.raiseFault c).draws = s.draws := rfl

@[simp] theorem State.initialised_params (s : State) : s.initialised.params = s.params := rfl
@[simp] theorem State.initialised_phase (s : State) : s.initialised.phase = .ready := rfl
@[simp] theorem State.initialised_faultCode (s : State) : s.initialised.faultCode = s.faultCode := rfl
@[simp] theorem State.initialised_rxIn (s : State) : s.initialised.rxIn = 0 := rfl
@[simp] theorem State.initialised_rxOut (s : State) : s.initialised.rxOut = 0 := rfl
@[simp] theorem State.initialised_txIn (s : State) : s.initialised.txIn = 0 := rfl
@[simp] theorem State.initialised_txOut (s : State) : s.initialised.txOut = 0 := rfl
@[simp] theorem State.initialised_txie (s : State) : s.initialised.txie = false := rfl
@[simp] theorem State.initialised_rxBuf (s : State) : s.initialised.rxBuf = s.rxBuf := rfl
@[simp] theorem State.initialised_txBuf (s : State) : s.initialised.txBuf = s.txBuf := rfl
@[simp] theorem State.initialised_txline (s : State) : s.initialised.txline = s.txline := rfl
@[simp] theorem State.initialised_results (s : State) : s.initialised.results = s.results := rfl
@[simp] theorem State.initialised_pc (s : State) : s.initialised.pc = s.pc := rfl
@[simp] theorem State.initialised_program (s : State) : s.initialised.program = s.program := rfl
@[simp] theorem State.initialised_agenda (s : State) : s.initialised.agenda = s.agenda := rfl
@[simp] theorem State.initialised_draws (s : State) : s.initialised.draws = s.draws := rfl

@[simp] theorem State.inPtr_rx (s : State) : s.inPtr .rx = s.rxIn := rfl
@[simp] theorem State.inPtr_tx (s : State) : s.inPtr .tx = s.txIn := rfl
@[simp] theorem State.outPtr_rx (s : State) : s.outPtr .rx = s.rxOut := rfl
@[simp] theorem State.outPtr_tx (s : State) : s.outPtr .tx = s.txOut := rfl
@[simp] theorem State.buf_rx (s : State) : s.buf .rx = s.rxBuf := rfl
@[simp] theorem State.buf_tx (s : State) : s.buf .tx = s.txBuf := rfl

end Sys2Proof.Machine
end

