-- ==== Sys2Proof/Laws/Fifo.lean ====
section
/-! SUPPORT. One FIFO: what a producer and a consumer do to its pointers, cells, occupancy and unread bytes. -/

namespace Sys2Proof.Machine

theorem Params.cap_rx (p : Config.Params) : p.cap .rx = 2 ^ p.kRx := rfl
theorem Params.cap_tx (p : Config.Params) : p.cap .tx = 2 ^ p.kTx := rfl

/-- A slot index fits into a pointer, with at least one bit to spare (R6). -/
theorem Params.k_lt_w (p : Config.Params) (d : Fifo) : p.k d < p.w d := by
  cases d <;> simp only [Config.Params.k, Config.Params.w] <;> omega

theorem Params.cap_pos (p : Config.Params) (d : Fifo) : 0 < p.cap d := two_pow_pos _

/-- Full is never empty: the capacity is a value the occupancy can take (R26). -/
theorem Params.cap_lt (p : Config.Params) (d : Fifo) : p.cap d < 2 ^ p.w d :=
  Nat.pow_lt_pow_right (by decide) (Params.k_lt_w p d)

theorem State.inSlot_lt (s : State) (d : Fifo) : s.inSlot d < s.params.cap d := slotOf_lt _ _

theorem State.outSlot_lt (s : State) (d : Fifo) : s.outSlot d < s.params.cap d := slotOf_lt _ _

theorem State.occ_lt (s : State) (d : Fifo) : s.occ d < 2 ^ s.params.w d := subMod_lt _ _ _

/-! ### A state that keeps one FIFO -/

/-- `t` holds the same FIFO `d` as `s`. -/
structure SameFifo (s t : State) (d : Fifo) : Prop where
  params : t.params = s.params
  inPtr : t.inPtr d = s.inPtr d
  outPtr : t.outPtr d = s.outPtr d
  buf : t.buf d = s.buf d

theorem SameFifo.occ {s t : State} {d : Fifo} (h : SameFifo s t d) : t.occ d = s.occ d := by
  simp only [State.occ, h.params, h.inPtr, h.outPtr]

theorem SameFifo.cell {s t : State} {d : Fifo} (h : SameFifo s t d) (a : Nat) : t.cell d a = s.cell d a := by
  simp only [State.cell, h.buf]

theorem SameFifo.unreadSlot {s t : State} {d : Fifo} (h : SameFifo s t d) (j : Nat) :
    t.unreadSlot d j = s.unreadSlot d j := by
  simp only [State.unreadSlot, h.params, h.outPtr]

theorem SameFifo.isEmpty {s t : State} {d : Fifo} (h : SameFifo s t d) : t.isEmpty d = s.isEmpty d := by
  simp only [State.isEmpty, h.inPtr, h.outPtr]

theorem SameFifo.isFull {s t : State} {d : Fifo} (h : SameFifo s t d) : t.isFull d = s.isFull d := by
  simp only [State.isFull, h.occ, h.params]

theorem SameFifo.unread {s t : State} {d : Fifo} (h : SameFifo s t d) : t.unread d = s.unread d := by
  simp only [State.unread, h.occ, h.cell, h.unreadSlot]

theorem SameFifo.fifoInv {s t : State} {d : Fifo} (h : SameFifo s t d) (hs : FifoInv s d) : FifoInv t d where
  inRange := by rw [h.params, h.inPtr]; exact hs.inRange
  outRange := by rw [h.params, h.outPtr]; exact hs.outRange
  written j hj := by rw [h.buf, h.unreadSlot]; exact hs.written j (h.occ ▸ hj)

theorem SameFifo.refl (s : State) (d : Fifo) : SameFifo s s d := ⟨rfl, rfl, rfl, rfl⟩

theorem SameFifo.trans {s t u : State} {d : Fifo} (h : SameFifo s t d) (h' : SameFifo t u d) : SameFifo s u d :=
  ⟨h'.params.trans h.params, h'.inPtr.trans h.inPtr, h'.outPtr.trans h.outPtr, h'.buf.trans h.buf⟩

/-! ### The FIFO's own updates -/

@[simp] theorem State.enqueue_params (s : State) (d : Fifo) (v : Byte) : (s.enqueue d v).params = s.params := by
  cases d <;> rfl

@[simp] theorem State.enqueue_inPtr (s : State) (d : Fifo) (v : Byte) :
    (s.enqueue d v).inPtr d = addMod (s.params.w d) (s.inPtr d) 1 := by cases d <;> rfl

@[simp] theorem State.enqueue_outPtr (s : State) (d e : Fifo) (v : Byte) :
    (s.enqueue d v).outPtr e = s.outPtr e := by cases d <;> cases e <;> rfl

@[simp] theorem State.enqueue_buf (s : State) (d : Fifo) (v : Byte) :
    (s.enqueue d v).buf d = (s.buf d).write (s.inSlot d) v := by cases d <;> rfl

@[simp] theorem State.advanceOut_inPtr (s : State) (d e : Fifo) : (s.advanceOut d).inPtr e = s.inPtr e := by
  cases d <;> cases e <;> rfl

@[simp] theorem State.advanceOut_outPtr (s : State) (d : Fifo) :
    (s.advanceOut d).outPtr d = addMod (s.params.w d) (s.outPtr d) 1 := by cases d <;> rfl

@[simp] theorem State.advanceOut_buf (s : State) (d e : Fifo) : (s.advanceOut d).buf e = s.buf e := by
  cases d <;> cases e <;> rfl

theorem State.enqueue_sameFifo (s : State) {d e : Fifo} (h : e ≠ d) (v : Byte) : SameFifo s (s.enqueue d v) e := by
  cases d <;> cases e <;> first | exact absurd rfl h | exact ⟨rfl, rfl, rfl, rfl⟩

theorem State.advanceOut_sameFifo (s : State) {d e : Fifo} (h : e ≠ d) : SameFifo s (s.advanceOut d) e := by
  cases d <;> cases e <;> first | exact absurd rfl h | exact ⟨rfl, rfl, rfl, rfl⟩

/-- A producer changes the cell at `slot_d(in_d)` alone. -/
theorem State.enqueue_cell (s : State) (d e : Fifo) (v : Byte) (a : Nat) :
    (s.enqueue d v).cell e a = if e = d ∧ a = s.inSlot d then v else s.cell e a := by
  by_cases h : e = d
  · subst h
    by_cases ha : a = s.inSlot e
    · simp [State.cell, ha]
    · simp [State.cell, Memory.read_write, ha]
  · simp [(s.enqueue_sameFifo h v).cell, h]

/-- A producer raises the occupancy by one modulo `2^W`. -/
theorem State.enqueue_occ (s : State) (d : Fifo) (v : Byte) :
    (s.enqueue d v).occ d = (s.occ d + 1) % 2 ^ s.params.w d := by
  simp only [State.occ, State.enqueue_params, State.enqueue_inPtr, State.enqueue_outPtr, subMod_addMod_one]

/-- Below the capacity the occupancy does not wrap. -/
theorem State.enqueue_occ_of_lt (s : State) (d : Fifo) (v : Byte) (h : s.occ d < s.params.cap d) :
    (s.enqueue d v).occ d = s.occ d + 1 := by
  have := Params.cap_lt s.params d
  rw [State.enqueue_occ, Nat.mod_eq_of_lt (by omega)]

/-- Empty means occupancy 0, for pointers of their width (R25). -/
theorem State.isEmpty_iff {s : State} {d : Fifo} (hi : s.inPtr d < 2 ^ s.params.w d)
    (ho : s.outPtr d < 2 ^ s.params.w d) : s.isEmpty d = true ↔ s.occ d = 0 := by
  rw [State.isEmpty, decide_eq_true_eq, State.occ, subMod_eq_zero_iff hi ho]

/-- A consumer lowers the occupancy of a non-empty FIFO by one. -/
theorem State.advanceOut_occ {s : State} {d : Fifo} (hi : s.inPtr d < 2 ^ s.params.w d)
    (ho : s.outPtr d < 2 ^ s.params.w d) (h : s.isEmpty d = false) : (s.advanceOut d).occ d = s.occ d - 1 := by
  have hne : s.inPtr d ≠ s.outPtr d := by simpa [State.isEmpty] using h
  simp only [State.occ, State.advanceOut_params, State.advanceOut_inPtr, State.advanceOut_outPtr,
    subMod_addMod_right hi ho hne]

/-- The slots of the unread bytes after a consumer are those before, less the first. -/
theorem State.advanceOut_unreadSlot (s : State) (d : Fifo) (j : Nat) :
    (s.advanceOut d).unreadSlot d j = s.unreadSlot d (j + 1) := by
  simp only [State.unreadSlot, State.advanceOut_params, State.advanceOut_outPtr, addMod_addMod, Nat.add_comm 1 j]

@[simp] theorem State.enqueue_unreadSlot (s : State) (d e : Fifo) (v : Byte) (j : Nat) :
    (s.enqueue d v).unreadSlot e j = s.unreadSlot e j := by
  simp only [State.unreadSlot, State.enqueue_params, State.enqueue_outPtr]

/-- The slot of an unread byte, without the pointer's wrap. -/
theorem State.unreadSlot_eq (s : State) (d : Fifo) (j : Nat) :
    s.unreadSlot d j = (s.outPtr d + j) % 2 ^ s.params.k d :=
  slotOf_addMod (Params.k_lt_w s.params d).le _ _

/-- The oldest unread byte stands at `slot_d(out_d)`. -/
theorem State.unreadSlot_zero (s : State) (d : Fifo) : s.unreadSlot d 0 = s.outSlot d := by
  rw [State.unreadSlot_eq]; rfl

/-- The slot a producer writes is the one after the last unread byte's. -/
theorem State.unreadSlot_occ {s : State} {d : Fifo} (hi : s.inPtr d < 2 ^ s.params.w d)
    (ho : s.outPtr d < 2 ^ s.params.w d) : s.unreadSlot d (s.occ d) = s.inSlot d := by
  rw [State.unreadSlot, State.occ, addMod_subMod hi ho]; rfl

/-- Unread bytes fewer than the capacity apart stand at different slots. -/
theorem State.unreadSlot_ne (s : State) (d : Fifo) {i j : Nat} (h : i < j) (hj : j - i < s.params.cap d) :
    s.unreadSlot d i ≠ s.unreadSlot d j := by
  rw [State.unreadSlot_eq, State.unreadSlot_eq]
  intro heq
  have hmod : (s.outPtr d + i) ≡ (s.outPtr d + j) [MOD 2 ^ s.params.k d] := heq
  have hdvd := (Nat.modEq_iff_dvd' (by omega)).1 hmod
  have hle := Nat.le_of_dvd (by omega) hdvd
  have hcap : s.params.cap d = 2 ^ s.params.k d := rfl
  omega

theorem State.unread_length (s : State) (d : Fifo) : (s.unread d).length = s.occ d := by
  simp [State.unread]

theorem State.unread_eq_nil {s : State} {d : Fifo} (h : s.occ d = 0) : s.unread d = [] := by
  simp [State.unread, h]

/-- A producer below the capacity appends its byte to the unread ones. -/
theorem State.enqueue_unread {s : State} {d : Fifo} (hi : s.inPtr d < 2 ^ s.params.w d)
    (ho : s.outPtr d < 2 ^ s.params.w d) (h : s.occ d < s.params.cap d) (v : Byte) :
    (s.enqueue d v).unread d = s.unread d ++ [v] := by
  unfold State.unread
  rw [State.enqueue_occ_of_lt s d v h, List.range_succ, List.map_append]
  congr 1
  · refine List.map_congr_left fun j hj => ?_
    have hlt : j < s.occ d := List.mem_range.1 hj
    have hne : s.unreadSlot d j ≠ s.inSlot d := by
      rw [← State.unreadSlot_occ hi ho]
      exact State.unreadSlot_ne s d hlt (by omega)
    simp [State.enqueue_cell, hne]
  · simp [State.enqueue_cell, State.unreadSlot_occ hi ho]

/-- A consumer of a non-empty FIFO takes the first of the unread bytes. -/
theorem State.unread_advanceOut {s : State} {d : Fifo} (hi : s.inPtr d < 2 ^ s.params.w d)
    (ho : s.outPtr d < 2 ^ s.params.w d) (h : s.isEmpty d = false) :
    s.unread d = s.oldest d :: (s.advanceOut d).unread d := by
  have hpos : s.occ d ≠ 0 := fun h0 => by
    rw [(State.isEmpty_iff hi ho).2 h0] at h
    exact absurd h (by decide)
  obtain ⟨n, hn⟩ := Nat.exists_eq_succ_of_ne_zero hpos
  unfold State.unread
  rw [State.advanceOut_occ hi ho h, hn, List.range_succ_eq_map, List.map_cons, List.map_map,
    State.unreadSlot_zero]
  congr 1
  refine List.map_congr_left fun j _ => ?_
  simp [State.advanceOut_unreadSlot, State.cell]

/-- A producer keeps the FIFO's invariant, at any occupancy. -/
theorem FifoInv.enqueue {s : State} {d : Fifo} (h : FifoInv s d) (v : Byte) : FifoInv (s.enqueue d v) d where
  inRange := by
    rw [State.enqueue_params, State.enqueue_inPtr]
    exact addMod_lt _ _ _
  outRange := by
    rw [State.enqueue_params, State.enqueue_outPtr]
    exact h.outRange
  written j hj := by
    rw [State.enqueue_unreadSlot, State.enqueue_buf, Memory.read_write]
    split_ifs with hs
    · rfl
    · refine h.written j ?_
      rw [State.enqueue_occ] at hj
      have hle : j < s.occ d + 1 := lt_of_lt_of_le hj (Nat.mod_le _ _)
      rcases Nat.lt_succ_iff_lt_or_eq.1 hle with hlt | heq
      · exact hlt
      · exact absurd (heq ▸ State.unreadSlot_occ h.inRange h.outRange) hs

/-- A consumer of a non-empty FIFO keeps its invariant. -/
theorem FifoInv.advanceOut {s : State} {d : Fifo} (h : FifoInv s d) (he : s.isEmpty d = false) :
    FifoInv (s.advanceOut d) d where
  inRange := by
    rw [State.advanceOut_params, State.advanceOut_inPtr]
    exact h.inRange
  outRange := by
    rw [State.advanceOut_params, State.advanceOut_outPtr]
    exact addMod_lt _ _ _
  written j hj := by
    rw [State.advanceOut_occ h.inRange h.outRange he] at hj
    rw [State.advanceOut_unreadSlot, State.advanceOut_buf]
    exact h.written _ (by omega)

end Sys2Proof.Machine
end

