-- ==== Sys2Proof/Laws/Ops.lean ====
section
/-! SUPPORT. What each shared operation, each meaning, a turn and the step can answer: said once, to be cited. -/

namespace Sys2Proof.Machine

/-! ### The common part of a step -/

theorem hostOperation_of_uninit {s : State} (h : s.phase = .uninit) (f : State → State) :
    hostOperation s f = .next (s.raiseFault .uninit) := by simp [hostOperation, h]

theorem hostOperation_of_ready {s : State} (h : s.phase = .ready) (f : State → State) :
    hostOperation s f = .next (f s).advancePc := by simp [hostOperation, h]

theorem hostOperation_of_faulted {s : State} (h : s.phase = .faulted) (f : State → State) :
    hostOperation s f = .fault (.notEnabled .host) := by simp [hostOperation, h]

/-- A host operation answers `F_UNINIT` in `UNINIT` and its effect in `READY`, and nothing in `FAULTED`. -/
theorem hostOperation_next {s t : State} {f : State → State} : hostOperation s f = .next t ↔
    (s.phase = .uninit ∧ t = s.raiseFault .uninit) ∨ (s.phase = .ready ∧ t = (f s).advancePc) := by
  cases h : s.phase <;> simp [hostOperation, h, eq_comm]

theorem deviceEvent_of_ready {a : Agent} {armed : Bool} {s : State} (h : s.phase = .ready) (ha : armed = true)
    (f : State → State) : deviceEvent a armed s f = .next (f s) := by simp [deviceEvent, h, ha]

theorem deviceEvent_of_not {a : Agent} {armed : Bool} {s : State} (h : ¬(s.phase = .ready ∧ armed = true))
    (f : State → State) : deviceEvent a armed s f = .fault (.notEnabled a) := by
  cases hp : s.phase <;> simp_all [deviceEvent]

/-- A device event answers its effect, in `READY` and armed, and nothing else. -/
theorem deviceEvent_next {a : Agent} {armed : Bool} {s t : State} {f : State → State} :
    deviceEvent a armed s f = .next t ↔ s.phase = .ready ∧ armed = true ∧ t = f s := by
  cases h : s.phase <;> cases ha : armed <;> simp [deviceEvent, h, eq_comm]

/-! ### The meanings -/

theorem execInit_next {s t : State} : execInit s = .next t ↔
    (s.phase = .uninit ∧ t = s.initialised.advancePc) ∨ (s.phase = .ready ∧ t = s.raiseFault .reinit) := by
  cases h : s.phase <;> simp [execInit, h, eq_comm]

theorem execWriteByte_next {b : Byte} {s t : State} : execWriteByte b s = .next t ↔
    (s.phase = .uninit ∧ t = s.raiseFault .uninit) ∨
      (s.phase = .ready ∧ t = (if s.isFull .tx then s else (s.enqueue .tx b).rearm).advancePc) :=
  hostOperation_next

theorem execReadByte_next {s t : State} : execReadByte s = .next t ↔
    (s.phase = .uninit ∧ t = s.raiseFault .uninit) ∨
      (s.phase = .ready ∧ t = (if s.isEmpty .rx then s.readOnEmpty
        else (s.advanceOut .rx).deliverResult (.byte (s.oldest .rx))).advancePc) :=
  hostOperation_next

theorem execAvailable_next {s t : State} : execAvailable s = .next t ↔
    (s.phase = .uninit ∧ t = s.raiseFault .uninit) ∨
      (s.phase = .ready ∧ t = (s.deliverResult (.count (s.occ .rx))).advancePc) :=
  hostOperation_next

theorem execRxByte_next {r : Byte} {s t : State} : execRxByte r s = .next t ↔
    s.phase = .ready ∧ t = if s.dropsNewest then s else s.enqueue .rx r := by
  simp [execRxByte, deviceEvent_next]

theorem execTxService_next {s t : State} : execTxService s = .next t ↔
    s.phase = .ready ∧ s.txie = true ∧ t = s.drainOne.disarmIfEmpty :=
  deviceEvent_next

/-- Re-arming sets `txie`, whatever it was. -/
theorem State.rearm_eq (s : State) : s.rearm = s.setTxie true := by
  unfold State.rearm State.setTxie
  split_ifs with h
  · rfl
  · obtain ⟨_⟩ := s
    simp_all

/-- A read on empty changes the results, and `draws` under `STALE`. -/
theorem State.readOnEmpty_eq (s : State) : ∃ v n, s.readOnEmpty =
    { s with results := s.results ++ [.byte v], draws := n } := by
  cases h : s.params.rxUdf with
  | sentinelZero => exact ⟨0, s.draws, by simp [State.readOnEmpty, h, State.deliverResult]⟩
  | stale => exact ⟨Config.draw s.draws, s.draws + 1, by
      simp [State.readOnEmpty, h, State.deliverDraw, State.deliverResult]⟩

/-! ### A turn and the step -/

theorem wellIssued_iff {a : Agent} {i : Instr} : wellIssued a i = true ↔ a = i.issuer := by simp [wellIssued]

/-- All a turn can do: fault on an illegal word, fault on another agent's word, or run the operation. -/
theorem takeTurn_next {t : Turn} {s s' : State} : takeTurn t s = .next s' ↔
    s.phase ≠ .faulted ∧ ∃ w, s.wordOf t = some w ∧
      ((∃ e, decode w = .error e ∧ s' = s.raiseFault .illegal) ∨
        (∃ i, decode w = .ok i ∧ t.agent ≠ i.issuer ∧ s' = s.raiseFault .port) ∨
        (∃ i, decode w = .ok i ∧ t.agent = i.issuer ∧ exec i s = .next s')) := by
  unfold takeTurn
  cases hw : s.wordOf t with
  | none => simp
  | some w =>
    cases hp : s.phase <;> cases hd : decode w with
    | error e => simp [deliver, hp, hd, eq_comm]
    | ok i =>
      by_cases hi : t.agent = i.issuer <;> simp [deliver, hp, hd, wellIssued, hi, eq_comm (a := s')]

/-- A turn whose word is its agent's own operation runs it. -/
theorem takeTurn_of_decode {t : Turn} {s : State} {w : OpWord} {i : Instr} (hw : s.wordOf t = some w)
    (hd : decode w = .ok i) (hi : t.agent = i.issuer) (hp : s.phase ≠ .faulted) : takeTurn t s = exec i s := by
  unfold takeTurn
  rw [hw]
  cases h : s.phase <;> simp_all [deliver, wellIssued]

/-- What a turn does, but for faults: it runs the operation of `State.operationOf`. -/
theorem takeTurn_cases {t : Turn} {s s' : State} (h : takeTurn t s = .next s') :
    (∃ c, c ≠ .noFault ∧ s.phase ≠ .faulted ∧ s.operationOf t = none ∧ s' = s.raiseFault c) ∨
      (∃ i, s.operationOf t = some i ∧ t.agent = i.issuer ∧ exec i s = .next s') := by
  obtain ⟨hp, w, hw, h⟩ := takeTurn_next.1 h
  rcases h with ⟨e, hd, rfl⟩ | ⟨i, hd, hi, rfl⟩ | ⟨i, hd, hi, he⟩
  · exact .inl ⟨.illegal, by decide, hp, by simp [State.operationOf, hw, hd], rfl⟩
  · exact .inl ⟨.port, by decide, hp, by simp [State.operationOf, hw, hd, wellIssued, hi], rfl⟩
  · exact .inr ⟨i, by simp [State.operationOf, hw, hd, wellIssued, hi], hi, he⟩

/-- A step is the next turn, taken. -/
theorem step_next {s t : State} : step s = .next t ↔
    ∃ u s', s.nextTurn = some (u, s') ∧ takeTurn u s' = .next t := by
  unfold step
  cases h : s.nextTurn with
  | none => simp
  | some p => simp [Prod.ext_iff]

/-- The state left for the next turn differs in the agenda and in `draws` alone. -/
theorem State.nextTurn_state {s s' : State} {t : Turn} (h : s.nextTurn = some (t, s')) :
    ∃ l n, s' = { s with agenda := l, draws := n } := by
  unfold State.nextTurn at h
  split at h
  · simp only [Option.some.injEq, Prod.mk.injEq] at h
    exact ⟨_, s.draws, h.2.symm⟩
  · split at h
    · exact absurd h (by simp)
    · simp only [Option.some.injEq, Prod.mk.injEq] at h
      exact ⟨s.agenda, _, h.2.symm⟩

end Sys2Proof.Machine
end

