-- ==== Sys2Proof/Laws/Invariant.lean ====
section
/-! SUPPORT. The shared operations keep the invariant (spec/10_state.md R35, R36, R37), and what reset's buffers
hold. -/

namespace Sys2Proof.Machine

/-- The buffers of the reset state have the canonical form and list nothing. -/
theorem State.reset_wf (d : Fifo) : (State.reset.buf d).wf = true ∧ State.reset.buf d = [] := by cases d <;> decide

/-- A schedule in two parts. -/
theorem runTurns_append (as bs : List Turn) (s : State) :
    runTurns (as ++ bs) s = (runTurns as s).bind (runTurns bs) := by
  induction as generalizing s with
  | nil => rfl
  | cons a as ih =>
    simp only [List.cons_append, runTurns]
    cases takeTurn a s <;> simp [ih]

/-- Fault entry keeps it. -/
theorem BlockInv.raiseFault {s : State} (h : BlockInv s) {c : FaultCode} (hc : c ≠ .noFault) :
    BlockInv (s.raiseFault c) where
  rxWf := h.rxWf
  txWf := h.txWf
  rxBelow := h.rxBelow
  txBelow := h.txBelow
  fault := by simp [hc]
  ready := by simp

/-- A state with the same FIFOs, phase, fault code and `txie` meets the invariant too. -/
theorem BlockInv.congr {s t : State} (h : BlockInv s) (hr : SameFifo s t .rx) (ht : SameFifo s t .tx)
    (hp : t.phase = s.phase) (hf : t.faultCode = s.faultCode) (hx : t.txie = s.txie) : BlockInv t where
  rxWf := by have := hr.buf; simp at this; rw [this]; exact h.rxWf
  txWf := by have := ht.buf; simp at this; rw [this]; exact h.txWf
  rxBelow := by have := hr.buf; simp only [State.buf_rx] at this; rw [this, hr.params]; exact h.rxBelow
  txBelow := by have := ht.buf; simp only [State.buf_tx] at this; rw [this, hr.params]; exact h.txBelow
  fault := by rw [hp, hf]; exact h.fault
  ready hp' := by
    have hi := h.ready (hp ▸ hp')
    exact ⟨hr.fifoInv hi.rx, ht.fifoInv hi.tx, by rw [ht.occ, ht.params]; exact hi.txBound,
      by rw [hr.occ, ht.params]; exact hi.rxBound, by rw [hx, ht.occ]; exact hi.armed⟩

/-- Storing a received byte that is not dropped keeps it. -/
theorem BlockInv.enqueue_rx {s : State} (h : BlockInv s) (hp : s.phase = .ready) (r : Byte)
    (hd : s.dropsNewest = false) : BlockInv (s.enqueue .rx r) where
  rxWf := Memory.write_wf h.rxWf _ _
  txWf := h.txWf
  rxBelow := Memory.write_below h.rxBelow (s.inSlot_lt .rx) _
  txBelow := h.txBelow
  fault := h.fault
  ready _ := by
    have hi := h.ready hp
    have hsf := s.enqueue_sameFifo (d := .rx) (e := .tx) (by decide) r
    refine ⟨hi.rx.enqueue r, hsf.fifoInv hi.tx, by rw [hsf.occ]; exact hi.txBound, fun ho => ?_,
      by rw [hsf.occ]; exact hi.armed⟩
    have hb := hi.rxBound ho
    have hne : s.occ .rx ≠ s.params.cap .rx := by
      simp only [State.enqueue_params] at ho
      simp only [State.dropsNewest, ho, State.isFull, decide_true, Bool.true_and, decide_eq_false_iff_not] at hd
      exact hd
    rw [s.enqueue_occ_of_lt .rx r (by omega)]
    simp only [State.enqueue_params]
    omega

/-- Storing a byte to transmit and arming keeps it. -/
theorem BlockInv.enqueue_tx {s : State} (h : BlockInv s) (hp : s.phase = .ready) (b : Byte)
    (hd : s.isFull .tx = false) : BlockInv ((s.enqueue .tx b).setTxie true) where
  rxWf := h.rxWf
  txWf := Memory.write_wf h.txWf _ _
  rxBelow := h.rxBelow
  txBelow := Memory.write_below h.txBelow (s.inSlot_lt .tx) _
  fault := h.fault
  ready _ := by
    have hi := h.ready hp
    have hb := hi.txBound
    have hne : s.occ .tx ≠ s.params.cap .tx := by
      simpa only [State.isFull, decide_eq_false_iff_not] using hd
    have ho := s.enqueue_occ_of_lt .tx b (by omega)
    have hsf := s.enqueue_sameFifo (d := .tx) (e := .rx) (by decide) b
    have h1 : SameFifo (s.enqueue .tx b) ((s.enqueue .tx b).setTxie true) .tx := ⟨rfl, rfl, rfl, rfl⟩
    have h2 : SameFifo (s.enqueue .tx b) ((s.enqueue .tx b).setTxie true) .rx := ⟨rfl, rfl, rfl, rfl⟩
    refine ⟨(hsf.trans h2).fifoInv hi.rx, h1.fifoInv (hi.tx.enqueue b), ?_, ?_, ?_⟩
    · rw [h1.occ, ho]; simp only [State.setTxie_params, State.enqueue_params]; omega
    · rw [(hsf.trans h2).occ]; exact hi.rxBound
    · rw [h1.occ, ho]; simp

/-- Transmitting one byte, and disarming on empty, keeps it. -/
theorem BlockInv.drain {s : State} (h : BlockInv s) (hp : s.phase = .ready) (hx : s.txie = true) :
    BlockInv s.drainOne.disarmIfEmpty := by
  have hi := h.ready hp
  have he : s.isEmpty .tx = false := by
    have := hi.armed.1 hx
    by_contra hc
    have := (State.isEmpty_iff hi.tx.inRange hi.tx.outRange).1 (by simpa using hc)
    omega
  have ho := State.advanceOut_occ hi.tx.inRange hi.tx.outRange he
  have hf := hi.tx.advanceOut he
  have hpos := hi.armed.1 hx
  have hsf := s.advanceOut_sameFifo (d := .tx) (e := .rx) (by decide)
  have hd : s.drainOne = (s.advanceOut .tx).emit (s.oldest .tx) := by simp [State.drainOne, he]
  have hemp : s.drainOne.isEmpty .tx = true ↔ s.occ .tx - 1 = 0 := by
    rw [hd, ← ho]; exact State.isEmpty_iff hf.inRange hf.outRange
  have key : ∀ x : Bool, (x = true ↔ 0 < s.occ .tx - 1) →
      BlockInv (((s.advanceOut .tx).emit (s.oldest .tx)).setTxie x) := by
    intro x hx
    have h1 : SameFifo (s.advanceOut .tx) (((s.advanceOut .tx).emit (s.oldest .tx)).setTxie x) .tx := ⟨rfl, rfl, rfl, rfl⟩
    have h2 : SameFifo (s.advanceOut .tx) (((s.advanceOut .tx).emit (s.oldest .tx)).setTxie x) .rx := ⟨rfl, rfl, rfl, rfl⟩
    refine ⟨h.rxWf, h.txWf, h.rxBelow, h.txBelow, h.fault,
      fun _ => ⟨(hsf.trans h2).fifoInv hi.rx, h1.fifoInv hf, ?_, ?_, ?_⟩⟩
    · have hb := hi.txBound
      rw [h1.occ, ho]
      simp only [State.setTxie_params, State.emit_params, State.advanceOut_params]
      omega
    · rw [(hsf.trans h2).occ]; exact hi.rxBound
    · rw [h1.occ, ho]; exact hx
  unfold State.disarmIfEmpty
  split_ifs with hc
  · rw [hd]; exact key false (by simp [hemp.1 hc])
  · rw [hd]
    have : s.occ .tx - 1 ≠ 0 := fun h => hc (hemp.2 h)
    have := key true (by simp; omega)
    convert this
    simp [State.setTxie, State.emit, State.advanceOut]
    rw [hx]

/-! ### What a run shows -/

@[simp] theorem State.observe_results (s : State) : s.observe.results = s.results := rfl
@[simp] theorem State.observe_txline (s : State) : s.observe.txline = s.txline := rfl
@[simp] theorem State.observe_registers (s : State) : s.observe.registers = s.registers := rfl
@[simp] theorem State.observe_rxBuf (s : State) : s.observe.rxBuf = s.rxBuf := rfl
@[simp] theorem State.observe_txBuf (s : State) : s.observe.txBuf = s.txBuf := rfl
@[simp] theorem State.observe_pc (s : State) : s.observe.pc = s.pc := rfl
@[simp] theorem State.registers_phase (s : State) : s.registers.phase = s.phase := rfl
@[simp] theorem State.registers_faultCode (s : State) : s.registers.faultCode = s.faultCode := rfl

/-- Two states have the same registers when each register agrees. -/
theorem State.registers_eq {s t : State} : s.registers = t.registers ↔ s.phase = t.phase ∧
    s.faultCode = t.faultCode ∧ s.rxIn = t.rxIn ∧ s.rxOut = t.rxOut ∧ s.txIn = t.txIn ∧ s.txOut = t.txOut ∧
    s.txie = t.txie := by simp [State.registers]

theorem Alike.symm {s t : State} (h : Alike s t) : Alike t s :=
  ⟨h.params.symm, h.program.symm, h.draws.symm, h.phase.symm, h.faultCode.symm, h.txline.symm, h.results.symm,
    h.pc.symm, h.right, h.left, fun hp => (h.registers (h.phase ▸ hp)).symm,
    fun hp d => (h.unread (h.phase ▸ hp) d).symm⟩

end Sys2Proof.Machine
end

