-- ==== Sys2Proof/Laws/PerInstr.lean ====
section
/-! SUPPORT. Statements for all operations, made per operation. -/

namespace Sys2Proof.Laws

/-- The encoding of an operation is a legal word of its own port: `RSV` is zero and `P` tells the port
(spec/30_encoding.md R63, R65, R70). -/
def EncodesLegalWord.Statement (i : Instr) : Prop :=
  illegalWord (encode i) = false ∧ rsvField (encode i) = 0 ∧ (portBit (encode i) = true ↔ i.port = .device)

theorem EncodesLegalWord.init : EncodesLegalWord.Statement .init := by
  simp [EncodesLegalWord.Statement, encode, illegalWord, wantsZeroOperand, Instr.port]

theorem EncodesLegalWord.writeByte (b : Byte) : EncodesLegalWord.Statement (.writeByte b) := by
  simp [EncodesLegalWord.Statement, encode, illegalWord, wantsZeroOperand, Instr.port]

theorem EncodesLegalWord.readByte : EncodesLegalWord.Statement .readByte := by
  simp [EncodesLegalWord.Statement, encode, illegalWord, wantsZeroOperand, Instr.port]

theorem EncodesLegalWord.available : EncodesLegalWord.Statement .available := by
  simp [EncodesLegalWord.Statement, encode, illegalWord, wantsZeroOperand, Instr.port]

theorem EncodesLegalWord.rxByte (r : Byte) : EncodesLegalWord.Statement (.rxByte r) := by
  simp [EncodesLegalWord.Statement, encode, illegalWord, wantsZeroOperand, Instr.port]

theorem EncodesLegalWord.txService : EncodesLegalWord.Statement .txService := by
  simp [EncodesLegalWord.Statement, encode, illegalWord, wantsZeroOperand, Instr.port]

end Sys2Proof.Laws
end

