-- ==== Sys2Proof/Tests/Slice0.lean ====
section
/-! SUPPORT. Small tests, whose expected results are the spec's own words and vectors (spec/30_encoding.md,
spec/95_test_vectors.md), and for every statement with hypotheses a concrete state that meets them. -/

namespace Sys2Proof.Tests
open Sys2Proof Sys2Proof.Machine Sys2Proof.Config

/-! ### Small states -/

/-- The parameter set P4 of 95_test_vectors.md. -/
def p4 (o : RxOverflow) (u : RxUnderflow) : Params :=
  { kRx := 2, kTx := 2, wideRx := 0, wideTx := 0, rxOvf := o, rxUdf := u, bus := default }

/-- The parameter set P1 of 95_test_vectors.md. -/
def p1 : Params := { p4 .dropNewest .sentinelZero with kRx := 0, kTx := 0 }

/-- `DROP_NEWEST` with `SENTINEL_ZERO`, under P4. -/
def dropP : Params := p4 .dropNewest .sentinelZero

/-- `OVERWRITE` with `STALE`, under P4. -/
def overP : Params := p4 .overwrite .stale

/-- The cells of a buffer, all written. -/
def cells (bs : List Byte) : Memory := bs.zipIdx.map fun c => (c.2, c.1)

/-- Power-on reset with the parameters and the host program given. -/
def boot (p : Params) (ws : List OpWord) : State := { State.reset with params := p, program := ws }

/-- A `READY` state, both FIFOs empty. -/
def rdy (p : Params) : State := { boot p [] with phase := .ready }

/-- The RX FIFO of a state, written `RX[i,o | bs]`. -/
def rx (s : State) (i o : Nat) (bs : List Byte) : State := { s with rxIn := i, rxOut := o, rxBuf := cells bs }

/-- The TX FIFO of a state, written `TX[i,o | bs] txie=e`. -/
def tx (s : State) (i o : Nat) (bs : List Byte) (e : Bool) : State :=
  { s with txIn := i, txOut := o, txBuf := cells bs, txie := e }

/-- The next state of an answer, if it is one. -/
def after : Answer → Option State
  | .next s => some s
  | .fault _ => none
  | .refused _ => none

/-- The reason of a stop, if the answer is one. -/
def stopped : Answer → Option Fault
  | .next _ => none
  | .fault f => some f
  | .refused _ => none

/-! ### Well-formed terms: the ill-formed ones are refused -/

theorem test_host_may_not_issue_rxByte : portMatches .host (.rxByte 0) = false := by decide
theorem test_txi_may_not_issue_rxByte : wellIssued .txi (.rxByte 0) = false := by decide
theorem test_rxi_may_not_issue_init : wellIssued .rxi .init = false := by decide
theorem test_program_holds_no_event : hostProgramOk [.init, .txService] = false := by decide
theorem test_program_of_host_operations : hostProgramOk [.init, .writeByte 1, .readByte, .available] = true := by decide

/-! ### Decoding: words written out from 30_encoding.md R62, R67, R68 and the table of 95_test_vectors.md -/

theorem test_decode_init : decode 0b0000000000000000#16 = .ok .init := by decide
theorem test_decode_writeByte : decode 0b0001000011111111#16 = .ok (.writeByte 0xFF) := by decide
theorem test_decode_readByte : decode 0b0010000000000000#16 = .ok .readByte := by decide
theorem test_decode_available : decode 0b0011000000000000#16 = .ok .available := by decide
theorem test_decode_rxByte : decode 0b1000000011111111#16 = .ok (.rxByte 0xFF) := by decide
theorem test_decode_txService : decode 0b1001000000000000#16 = .ok .txService := by decide

/-- The illegal words of the table. -/
theorem test_illegal_words :
    [0x0001, 0x1100, 0x2080, 0x4000, 0x7FFF, 0x9001, 0xA000, 0x8F00, 0xF000].all illegalWord = true := by decide

/-- The reason each clause of R70 gives. -/
theorem test_illegal_reasons :
    decode 0x1100 = .error .reservedField ∧ decode 0x4000 = .error .reservedOperation ∧
    decode 0xA000 = .error .reservedOperation ∧ decode 0x9001 = .error .operandNotZero := by decide

theorem test_table_word : decodeTableWord 16 0x1041 = some (.writeByte 0x41) ∧ decodeTableWord 16 0x9001 = none := by
  decide

/-- V-L1-4: the words of `PUTC`. -/
theorem test_putc_words : putcWords 0x0A = [0x100D, 0x100A] ∧ putcWords 0x41 = [0x1041] := by decide

/-- R74: a decimal literal, a character literal, an escape, and a listing with a comment line. -/
theorem test_assemble : assembleProgram
    [['I', 'N', 'I', 'T'], [';', 'x'], ['W', 'R', 'I', 'T', 'E', '_', 'B', 'Y', 'T', 'E', ' ', '6', '5'],
      ['H', 'O', 'S', 'T', ':', ' ', 'W', 'R', 'I', 'T', 'E', '_', 'B', 'Y', 'T', 'E', ' ', '\'', 'A', '\''],
      ['P', 'U', 'T', 'C', ' ', '\'', '\\', 'n', '\'']] = some [0x0000, 0x1041, 0x1041, 0x100D, 0x100A] := by decide

/-- R74: 256 is no byte, and a comment needs its semicolon. -/
theorem test_assemble_refuses :
    assembleLine ['R', 'X', '_', 'B', 'Y', 'T', 'E', ' ', '2', '5', '6'] = none ∧
    assembleLine ['I', 'N', 'I', 'T', ' ', 'x'] = none := by decide

/-! ### One step of each operation, from 95_test_vectors.md -/

/-- V-IN-1. -/
theorem test_init : after (takeTurn .host (boot dropP [0x0000])) =
    some { boot dropP [0x0000] with phase := .ready, pc := 1 } := by decide

/-- V-IN-2. -/
theorem test_reinit : after (takeTurn .host { rdy dropP with program := [0x0000] }) =
    some { rdy dropP with program := [0x0000], phase := .faulted, faultCode := .reinit } := by decide

/-- V-WB-4: the write wraps the pointer and re-arms. -/
theorem test_write_wraps : after (exec (.writeByte 0x5A) (tx (rdy dropP) 7 7 [1, 2, 3, 4] false)) =
    some { tx (rdy dropP) 0 7 [1, 2, 3, 0x5A] true with pc := 1 } := by decide

/-- V-WB-5: full across the wrap, dropped. -/
theorem test_write_dropped : after (exec (.writeByte 0x11) (tx (rdy dropP) 2 6 [1, 2, 3, 4] true)) =
    some { tx (rdy dropP) 2 6 [1, 2, 3, 4] true with pc := 1 } := by decide

/-- V-RB-4: slot 3, and the pointer wraps. -/
theorem test_read_wraps : after (exec .readByte (rx (rdy dropP) 0 7 [1, 2, 3, 0x77])) =
    some { rx (rdy dropP) 0 0 [1, 2, 3, 0x77] with pc := 1, results := [.byte 0x77] } := by decide

/-- V-RB-2: the sentinel. -/
theorem test_read_empty : after (exec .readByte (rx (rdy dropP) 1 1 [0x31])) =
    some { rx (rdy dropP) 1 1 [0x31] with pc := 1, results := [.byte 0] } := by decide

/-- V-AV-4: (1 - 6) mod 8 = 3. -/
theorem test_available_wraps : (after (exec .available (rx (rdy dropP) 1 6 []))).map State.results =
    some [.count 3] := by decide

/-- V-IN-5. -/
theorem test_available_uninit : after (takeTurn .host (boot dropP [0x3000])) =
    some { boot dropP [0x3000] with phase := .faulted, faultCode := .uninit } := by decide

/-- V-RX-5: the oldest unread byte is overwritten. -/
theorem test_rx_overwrites : after (exec (.rxByte 0x66) (rx (rdy overP) 7 3 [1, 2, 3, 4])) =
    some (rx (rdy overP) 0 3 [1, 2, 3, 0x66]) := by decide

/-- V-RX-4: dropped. -/
theorem test_rx_dropped : after (exec (.rxByte 0x66) (rx (rdy dropP) 7 3 [1, 2, 3, 4])) =
    some (rx (rdy dropP) 7 3 [1, 2, 3, 4]) := by decide

/-- V-TX-4: slot 3, the pointer wraps, and the interrupt is disarmed. -/
theorem test_service_wraps : after (exec .txService (tx (rdy dropP) 0 7 [1, 2, 3, 0x5A] true)) =
    some { tx (rdy dropP) 0 0 [1, 2, 3, 0x5A] false with txline := [0x5A] } := by decide

/-- V-TX-3: still armed. -/
theorem test_service_stays_armed : after (exec .txService (tx (rdy dropP) 2 0 [0x41, 0x42] true)) =
    some { tx (rdy dropP) 2 1 [0x41, 0x42] true with txline := [0x41] } := by decide

/-! ### The order of the checks, and stops -/

/-- V-IN-6 to V-IN-8: illegality before port before phase. -/
theorem test_check_order :
    ([0x0001, 0x9000, 0x9001].map fun w => (after (takeTurn .host (boot dropP [w]))).map State.faultCode) =
      [some .illegal, some .port, some .illegal] := by decide

/-- V-RX-6, V-TX-6, V-TX-2: no step. -/
theorem test_not_enabled :
    stopped (takeTurn (.rxi 0x8031) State.reset) = some (.notEnabled .rxi) ∧
    stopped (takeTurn (.txi 0x9000) State.reset) = some (.notEnabled .txi) ∧
    stopped (takeTurn (.txi 0x9000) (tx (rdy dropP) 1 1 [0x41] false)) = some (.notEnabled .txi) := by decide

/-- A word placed with `withFetchWord` is what the next step runs. -/
theorem test_withFetchWord_host : (after (step (State.reset.withFetchWord 16 0x0000))).map State.phase =
    some .ready := by decide
theorem test_withFetchWord_rx : (after (step ((rdy dropP).withFetchWord 16 0x8055))).map State.rxBuf =
    some [(0, 0x55)] := by decide
theorem test_withFetchWord_tx :
    (after (step ((tx (rdy dropP) 1 0 [0x41] true).withFetchWord 16 0x9000))).map State.txline =
      some [0x41] := by decide

/-- Parameters whose `AVAILABLE` register has `n` bits, on a bus of the byte order given. -/
def onBusOf (n : Nat) (o : ByteOrder) : Params :=
  { dropP with bus := { (default : BusBinding) with
      byteOrder := o, hostPort := { (default : HostPortRegisters) with available := { address := 0, width := n } } } }

/-- R76: a result of 3 bits in a register of 8, and none in a register of 2. -/
theorem test_onBus : ((Result.count 5).onBus (onBusOf 8 .littleEndian)).map BitVec.toNat = some 5 ∧
    ((Result.count 5).onBus (onBusOf 2 .littleEndian)).map BitVec.toNat = none := by decide

/-- R46: the order of a count's bytes on the bus. -/
theorem test_busBytes : (Result.count 5).busBytes (onBusOf 16 .littleEndian) = some [5, 0] ∧
    (Result.count 5).busBytes (onBusOf 16 .bigEndian) = some [0, 5] ∧
    (Result.count 5).busBytes (onBusOf 16 (.lanes [1, 0])) = some [0, 5] := by decide

/-- R18, R150: the final registers are observed. -/
theorem test_observe : (tx (rx (rdy overP) 5 0 [0x35]) 1 0 [0x41] true).observe.registers =
    { phase := .ready, faultCode := .noFault, rxIn := 5, rxOut := 0, txIn := 1, txOut := 0, txie := true } := by decide

/-! ### Witnesses: states that meet the hypotheses of the statements -/

/-- The invariant of a concrete `READY` state, from facts that `decide` settles. -/
theorem inv_of {s : State} (hm : s.rxBuf.wf = true ∧ s.txBuf.wf = true ∧ s.rxBuf.below (s.params.cap .rx) = true ∧
      s.txBuf.below (s.params.cap .tx) = true) (hf : s.phase = .ready ∧ s.faultCode = .noFault)
    (hr : ∀ d ∈ [Fifo.rx, Fifo.tx], s.inPtr d < 2 ^ s.params.w d ∧ s.outPtr d < 2 ^ s.params.w d ∧
      ∀ j, j < s.occ d → ((s.buf d).read (s.unreadSlot d j)).isSome = true)
    (hb : s.occ .tx ≤ s.params.cap .tx ∧ (s.params.rxOvf = .dropNewest → s.occ .rx ≤ s.params.cap .rx) ∧
      (s.txie = true ↔ 0 < s.occ .tx)) : BlockInv s where
  rxWf := hm.1
  txWf := hm.2.1
  rxBelow := hm.2.2.1
  txBelow := hm.2.2.2
  fault := by simp [hf]
  ready _ := ⟨⟨(hr .rx (by simp)).1, (hr .rx (by simp)).2.1, (hr .rx (by simp)).2.2⟩,
    ⟨(hr .tx (by simp)).1, (hr .tx (by simp)).2.1, (hr .tx (by simp)).2.2⟩, hb.1, hb.2.1, hb.2.2⟩

/-- Power-on with any parameters and any host program. -/
theorem boot_powerOn (p : Params) (ws : List OpWord) : PowerOn (boot p ws) :=
  ⟨rfl, rfl, rfl, rfl, rfl, rfl, rfl, rfl, rfl⟩

/-- A state that a schedule leads to from power-on. -/
theorem reachable_of {p : Params} {ws : List OpWord} {s : State} (ts : List Turn)
    (h : runTurns ts (boot p ws) = some s) : Reachable s := ⟨_, ts, boot_powerOn p ws, h⟩

/-- `TX[0,6 | .. ]`, two bytes unread across the wrap, and `RX[4,0]`, full: transmitting. -/
def busy : State := tx (rx (rdy dropP) 4 0 [0x31, 0x32, 0x33, 0x34]) 0 6 [1, 2, 3, 4] true

theorem busy_inv : BlockInv busy := inv_of (by decide) (by decide) (by decide) (by decide)

/-- Both FIFOs empty, the pointers about to wrap: idle. -/
def quiet (p : Params) : State := tx (rx (rdy p) 7 7 [1, 2, 3, 4]) 7 7 [1, 2, 3, 4] false

theorem quiet_inv : BlockInv (quiet dropP) := inv_of (by decide) (by decide) (by decide) (by decide)

theorem quiet_over_inv : BlockInv (quiet overP) := inv_of (by decide) (by decide) (by decide) (by decide)

/-- A faulted state. -/
def faulted : State := (quiet dropP).raiseFault .port

theorem faulted_inv : BlockInv faulted := quiet_inv.raiseFault (by decide)

theorem witness_DecodeInvertsEncode : decode 0x80FF = .ok (.rxByte 0xFF) ∧ (0x80FF : OpWord) = encode (.rxByte 0xFF) := by
  decide

theorem witness_IllegalWordsFault :
    (boot dropP [0x4000]).wordOf .host = some 0x4000 ∧ illegalWord 0x4000 = true ∧
    State.reset.wordOf (.txi 0x9001) = some 0x9001 ∧ illegalWord 0x9001 = true ∧
    (boot dropP [0x4000]).phase ≠ .faulted ∧ faulted.phase = .faulted := by decide

theorem witness_StepRunsDecodedInstruction :
    (∃ s : State, s.agenda = [.txi 0x9000] ∧ ∃ s', s.nextTurn = some (.txi 0x9000, s') ∧
      s'.wordOf (.txi 0x9000) = some 0x9000 ∧ decode 0x9000 = .ok .txService ∧
      Instr.txService.issuer = (Turn.txi 0x9000).agent) ∧
    (∃ s s' : State, s.agenda = [] ∧ s.nextTurn = some (.host, s') ∧ s'.wordOf .host = some 0x0000 ∧
      decode 0x0000 = .ok .init ∧ Instr.init.issuer = Turn.host.agent) :=
  ⟨⟨{ busy with agenda := [.txi 0x9000] }, rfl, _, rfl, by decide⟩,
    boot dropP [0x0000], _, rfl, rfl, by decide⟩

theorem witness_FreeScheduleTakesAnEnabledTurn :
    (busy.agenda = [] ∧ ∃ a, busy.enabled a = true) ∧
    (State.reset.agenda = [] ∧ ∀ a, State.reset.enabled a = false) :=
  ⟨⟨rfl, .txi, by decide⟩, rfl, fun a => by cases a <;> decide⟩

theorem witness_OperationStepsExactlyWhenEnabled :
    (Instr.txService.issuer = .txi ∧ busy.phase = .ready ∧ busy.txie = true) ∧
    (Instr.init.issuer = .host ∧ State.reset.phase ≠ .faulted) ∧
    ((Instr.rxByte 0).issuer = .rxi ∧ State.reset.phase ≠ .ready) := by decide

theorem witness_FaultedBlockHasNoStep : faulted.phase = .faulted ∧ BlockInv faulted := ⟨rfl, faulted_inv⟩

/-- One state for each branch, last the operation itself. -/
theorem witness_HostStepChecksInOrder :
    ({ faulted with program := [0x0000] } : State).program[faulted.pc]? = some 0x0000 ∧
    ([0x4000, 0x9000, 0x1041, 0x0000].map fun w =>
      (illegalWord w, w.getLsbD 15, decide (opField w = 0#3))) =
        [(true, false, false), (false, true, false), (false, false, false), (false, false, true)] ∧
    (boot dropP [0x1041]).program[0]? = some 0x1041 ∧ (boot dropP [0x1041]).phase = .uninit ∧
    ({ busy with program := [0x1041] } : State).program[busy.pc]? = some 0x1041 ∧ busy.phase = .ready := by decide

theorem witness_FaultsArePreciseAndFinal :
    (∃ s s', takeTurn .host s = .next s' ∧ s'.phase = .faulted) ∧ faulted.phase = .faulted :=
  ⟨⟨boot dropP [0x2000], _, rfl, rfl⟩, rfl⟩

theorem witness_DeviceEventsRaiseNoFault :
    ((Turn.txi 0x9000).ownEvent = true ∧ ∃ s', takeTurn (.txi 0x9000) busy = .next s') ∧
    ((Turn.rxi 0x80FF).ownEvent = true ∧ ∃ s', takeTurn (.rxi 0x80FF) busy = .next s') :=
  ⟨⟨by decide, _, rfl⟩, by decide, _, rfl⟩

theorem witness_OperationsBeforeInitFault :
    State.reset.phase = .uninit ∧ Instr.available.issuer = .host ∧ Instr.available ≠ .init := by decide

theorem witness_SecondInitFaults : busy.phase = .ready := rfl

/-- A host word from `RXI`, and `RXI`'s event from `TXI`. -/
theorem witness_PortViolationFaults :
    State.reset.wordOf (.rxi 0x2000) = some 0x2000 ∧ decode 0x2000 = .ok .readByte ∧
    (Turn.rxi 0x2000).agent ≠ Instr.readByte.issuer ∧ State.reset.phase ≠ .faulted ∧
    busy.wordOf (.txi 0x8000) = some 0x8000 ∧ decode 0x8000 = .ok (.rxByte 0) ∧
    (Turn.txi 0x8000).agent ≠ (Instr.rxByte 0).issuer ∧ busy.phase ≠ .faulted := by decide

theorem witness_InitGivesOperatingState : State.reset.phase = .uninit := rfl

theorem witness_OnlyInitLeavesUninit :
    (∃ s s', takeTurn .host s = .next s' ∧ s.phase = .uninit ∧ s'.phase ≠ .uninit) ∧
    (∃ s', takeTurn (.txi 0x9000) busy = .next s' ∧ busy.phase ≠ .uninit) :=
  ⟨⟨boot dropP [0x0000], _, rfl, rfl, by decide⟩, _, rfl, by decide⟩

/-- Before `INIT`; full across the wrap; one free slot; empty. -/
theorem witness_WriteByteMeaning :
    State.reset.phase = .uninit ∧ (tx (rdy dropP) 2 6 [1, 2, 3, 4] true).occ .tx = dropP.cap .tx ∧
    (tx (rdy dropP) 1 6 [1, 2, 3, 4] true).occ .tx + 1 = dropP.cap .tx ∧ (quiet dropP).occ .tx = 0 ∧
    (rdy dropP).phase = .ready := by decide

theorem witness_WriteByteFrame :
    (∃ t, exec (.writeByte 9) (quiet dropP) = .next t) ∧
    (tx (rdy dropP) 2 6 [] true).isFull .tx = true ∧ ∃ t, exec (.writeByte 9) (tx (rdy dropP) 2 6 [] true) = .next t :=
  ⟨⟨_, rfl⟩, by decide, _, rfl⟩

theorem witness_AcceptedWriteFillsTheFifo :
    let s := tx (rdy dropP) 1 6 [1, 2, 3, 4] true
    s.phase = .ready ∧ s.txIn < 2 ^ s.params.w .tx ∧ s.txOut < 2 ^ s.params.w .tx ∧ s.occ .tx < s.params.cap .tx ∧
      s.occ .tx + 1 = s.params.cap .tx ∧ ∃ t, exec (.writeByte 9) s = .next t :=
  ⟨rfl, by decide, by decide, by decide, by decide, _, rfl⟩

theorem witness_ReadByteReturnsOldest :
    State.reset.phase = .uninit ∧ busy.phase = .ready ∧ busy.rxIn ≠ busy.rxOut := by decide

theorem witness_ReadOnEmptyGivesSentinel :
    (quiet dropP).phase = .ready ∧ (quiet dropP).rxIn = (quiet dropP).rxOut ∧
    (quiet dropP).params.rxUdf = .sentinelZero := by decide

theorem witness_ReadOnEmptyStaleIsFree :
    (quiet overP).phase = .ready ∧ (quiet overP).rxIn = (quiet overP).rxOut ∧
    (quiet overP).params.rxUdf = .stale := by decide

theorem witness_ReadByteFrame :
    (∃ t, exec .readByte busy = .next t) ∧ (quiet overP).rxIn = (quiet overP).rxOut ∧
    ∃ t, exec .readByte (quiet overP) = .next t := ⟨⟨_, rfl⟩, rfl, _, rfl⟩

/-- V-RB-7: in overrun, all five reads. -/
theorem witness_ReadsReturnSlotsInOrder :
    let s := rx (rdy overP) 5 0 [0x35, 0x32, 0x33, 0x34]
    s.phase = .ready ∧ s.rxIn < 2 ^ s.params.w .rx ∧ s.rxOut < 2 ^ s.params.w .rx ∧ s.occ .rx = 5 := by decide

theorem witness_AvailableReturnsOccupancy :
    State.reset.phase = .uninit ∧ busy.phase = .ready ∧ busy.rxIn < 2 ^ busy.params.w .rx ∧
    busy.rxOut < 2 ^ busy.params.w .rx := by decide

theorem witness_AvailableIsIdempotent :
    ∃ t u, exec .available busy = .next t ∧ exec .available t = .next u := ⟨_, _, rfl, rfl⟩

/-- Not ready; full and dropped; full under `OVERWRITE`. -/
theorem witness_RxByteMeaning :
    State.reset.phase ≠ .ready ∧
    (busy.phase = .ready ∧ busy.params.rxOvf = .dropNewest ∧ busy.occ .rx = busy.params.cap .rx) ∧
    ((rx (rdy overP) 7 3 []).phase = .ready ∧ (rx (rdy overP) 7 3 []).occ .rx = overP.cap .rx ∧
      overP.rxOvf ≠ .dropNewest) := by decide

theorem witness_RxByteFrame :
    (∃ t, exec (.rxByte 9) busy = .next t) ∧ busy.dropsNewest = true ∧
    (∃ t, exec (.rxByte 9) (quiet dropP) = .next t) ∧ (quiet dropP).dropsNewest = false :=
  ⟨⟨_, rfl⟩, by decide, ⟨_, rfl⟩, by decide⟩

/-- Full, and one arrival before the occupancy wraps. -/
theorem witness_OverwriteLosesUnreadBytes :
    let s := rx (rdy overP) 7 3 [1, 2, 3, 4]
    let u := rx (rdy overP) 7 0 [1, 2, 3, 4]
    s.phase = .ready ∧ s.params.rxOvf = .overwrite ∧ s.rxIn < 2 ^ s.params.w .rx ∧ s.rxOut < 2 ^ s.params.w .rx ∧
      s.occ .rx = s.params.cap .rx ∧ u.occ .rx + 1 = 2 ^ u.params.w .rx := by decide

theorem witness_UnreadArrivalsWrap : (quiet overP).phase = .ready ∧ (quiet overP).params.rxOvf = .overwrite := by
  decide

/-- V-TX-2, V-TX-1 and V-TX-5. -/
theorem witness_TxServiceMeaning :
    (quiet dropP).txie = false ∧
    (busy.phase = .ready ∧ busy.txie = true ∧ busy.txIn ≠ busy.txOut) ∧
    ((tx (rdy dropP) 3 3 [] true).phase = .ready ∧ (tx (rdy dropP) 3 3 [] true).txie = true ∧
      (tx (rdy dropP) 3 3 [] true).txIn = (tx (rdy dropP) 3 3 [] true).txOut) := by decide

theorem witness_TxServiceOnEmptyDisarms :
    ((tx (rdy dropP) 3 3 [] true).phase = .ready ∧ (tx (rdy dropP) 3 3 [] true).txie = true ∧
      (tx (rdy dropP) 3 3 [] true).isEmpty .tx = true) ∧
    ∃ s, Reachable s ∧ s.phase = .ready ∧ s.txie = true :=
  ⟨by decide, _, reachable_of (p := dropP) (ws := [0x0000, 0x1041]) [.host, .host] rfl, rfl, rfl⟩

theorem witness_BytesLeaveOnlyWhileTransmitting :
    (quiet dropP).txie = false ∧ ∃ s', takeTurn (.txi 0x9000) busy = .next s' ∧ s'.txline ≠ busy.txline ∧
      busy.phase = .ready ∧ s'.txOut ≠ busy.txOut := ⟨rfl, _, rfl, by decide, rfl, by decide⟩

theorem witness_OneByteEachEvent :
    (∃ t, exec .txService busy = .next t) ∧ ∃ t, exec (.rxByte 9) (quiet dropP) = .next t := ⟨⟨_, rfl⟩, _, rfl⟩

theorem witness_TxServiceFrame : ∃ t, exec .txService busy = .next t := ⟨_, rfl⟩

/-- Idle; full; two bytes; one byte; and `INIT`. -/
theorem witness_TxControllerTransitions :
    (BlockInv (quiet dropP) ∧ (quiet dropP).phase = .ready ∧ (quiet dropP).txState = .idle) ∧
    (BlockInv (tx (rdy dropP) 2 6 [1, 2, 3, 4] true) ∧
      (tx (rdy dropP) 2 6 [1, 2, 3, 4] true).occ .tx = dropP.cap .tx) ∧
    (BlockInv busy ∧ busy.txState = .transmitting ∧ busy.occ .tx = 2) ∧
    (BlockInv (tx (rdy dropP) 0 7 [1, 2, 3, 4] true) ∧ (tx (rdy dropP) 0 7 [1, 2, 3, 4] true).occ .tx = 1) ∧
    (∃ t, exec .available busy = .next t) ∧ ∃ t, exec .init State.reset = .next t :=
  ⟨⟨quiet_inv, rfl, rfl⟩, ⟨inv_of (by decide) (by decide) (by decide) (by decide), by decide⟩,
    ⟨busy_inv, by decide, by decide⟩, ⟨inv_of (by decide) (by decide) (by decide) (by decide), by decide⟩,
    ⟨_, rfl⟩, _, rfl⟩

/-- Each register changes somewhere. -/
theorem witness_EachCellHasItsWriters :
    (∃ t, exec (.rxByte 9) (quiet dropP) = .next t ∧ t.rxIn ≠ (quiet dropP).rxIn ∧ t.rxBuf ≠ (quiet dropP).rxBuf) ∧
    (∃ t, exec .readByte busy = .next t ∧ t.rxOut ≠ busy.rxOut ∧ t.results ≠ busy.results) ∧
    (∃ t, exec (.writeByte 9) (quiet dropP) = .next t ∧ t.txIn ≠ (quiet dropP).txIn ∧
      t.txie ≠ (quiet dropP).txie ∧ t.txBuf ≠ (quiet dropP).txBuf) ∧
    (∃ t, exec .txService busy = .next t ∧ t.txOut ≠ busy.txOut ∧ t.txline ≠ busy.txline) ∧
    (∃ t, exec .readByte State.reset = .next t ∧ t.phase ≠ State.reset.phase ∧
      t.faultCode ≠ State.reset.faultCode) :=
  ⟨⟨_, rfl, by decide, by decide⟩, ⟨_, rfl, by decide, by decide⟩, ⟨_, rfl, by decide, by decide, by decide⟩,
    ⟨_, rfl, by decide, by decide⟩, _, rfl, by decide, by decide⟩

theorem witness_OneWriterForEachPointer :
    (∃ t, exec (.rxByte 9) (quiet dropP) = .next t ∧ (quiet dropP).phase = .ready ∧ t.rxIn ≠ (quiet dropP).rxIn) ∧
    (∃ t, exec .readByte busy = .next t ∧ busy.phase = .ready ∧ t.rxOut ≠ busy.rxOut) ∧
    (∃ t, exec (.writeByte 9) busy = .next t ∧ t.txIn ≠ busy.txIn) ∧
    (∃ t, exec .txService busy = .next t ∧ t.txOut ≠ busy.txOut) ∧
    (∃ t, exec .init State.reset = .next t ∧ State.reset.phase = .uninit ∧ t.phase = .ready) ∧
    (∃ t, takeTurn (.txi 0x9000) busy = .next t ∧ t.txOut ≠ busy.txOut) :=
  ⟨⟨_, rfl, rfl, by decide⟩, ⟨_, rfl, rfl, by decide⟩, ⟨_, rfl, by decide⟩, ⟨_, rfl, by decide⟩,
    ⟨_, rfl, rfl, rfl⟩, _, rfl, by decide⟩

theorem witness_ParametersNeverChange : ∃ t, step { busy with agenda := [.txi 0x9000] } = .next t := ⟨_, rfl⟩

/-- A host turn that does not fault, one that does, and a device turn. -/
theorem witness_ProgramCounterAdvancesByOne :
    (∃ t, takeTurn .host (boot dropP [0x0000]) = .next t ∧ t.phase ≠ .faulted) ∧
    (∃ t, takeTurn .host (boot dropP [0x2000]) = .next t ∧ t.phase = .faulted) ∧
    (∃ t, takeTurn (.rxi 0x8001) busy = .next t) :=
  ⟨⟨_, rfl, by decide⟩, ⟨_, rfl, rfl⟩, _, rfl⟩

theorem witness_HostCannotObserveTransmitSide :
    Instr.readByte.issuer ≠ .txi ∧ ∃ s', exec .readByte busy = .next s' := ⟨by decide, _, rfl⟩

theorem witness_PowerOnSatisfiesInvariant : PowerOn (boot dropP [0x0000]) := boot_powerOn _ _

theorem witness_EveryStepKeepsInvariant :
    BlockInv { busy with agenda := [.txi 0x9000] } ∧ ∃ t, step { busy with agenda := [.txi 0x9000] } = .next t :=
  ⟨busy_inv.congr ⟨rfl, rfl, rfl, rfl⟩ ⟨rfl, rfl, rfl, rfl⟩ rfl rfl rfl, _, rfl⟩

/-- Under P1, where one byte fills the FIFO. -/
theorem witness_TxOccupancyIsBounded : ∃ s, Reachable s ∧ s.phase = .ready ∧ s.occ .tx = s.params.cap .tx :=
  ⟨_, reachable_of (p := p1) (ws := [0x0000, 0x1041]) [.host, .host] rfl, rfl, by decide⟩

theorem witness_ArmedExactlyWhenNonEmpty :
    (∃ s, Reachable s ∧ s.phase = .ready ∧ s.txState = .idle) ∧
    ∃ s, Reachable s ∧ s.phase = .ready ∧ s.isEmpty .tx = false :=
  ⟨⟨_, reachable_of (p := dropP) (ws := [0x0000]) [.host] rfl, rfl, rfl⟩,
    _, reachable_of (p := dropP) (ws := [0x0000, 0x1041]) [.host, .host] rfl, rfl, by decide⟩

theorem witness_RxOccupancyBounds :
    (∃ s, Reachable s ∧ s.phase = .ready ∧ s.params.rxOvf = .dropNewest ∧ s.occ .rx = s.params.cap .rx) ∧
    overP.rxOvf = .overwrite ∧ 7 < 2 ^ overP.w .rx :=
  ⟨⟨_, reachable_of (p := p1) (ws := [0x0000]) [.host, .rxi 0x8001] rfl, rfl, rfl, by decide⟩, by decide⟩

theorem witness_UnreadCellsHaveBeenWritten :
    ∃ s, PowerOn (boot dropP [0x0000]) ∧ (boot dropP [0x0000]).rxBuf = [] ∧ (boot dropP [0x0000]).txBuf = [] ∧
      runTurns [.host, .rxi 0x8031] (boot dropP [0x0000]) = some s ∧ s.phase = .ready ∧ s.occ .rx = 1 :=
  ⟨_, boot_powerOn _ _, rfl, rfl, rfl, rfl, by decide⟩

theorem witness_SuccessfulEndIsQuiet : ∃ s, Reachable s ∧ EndsSuccessfully s :=
  ⟨_, reachable_of (p := dropP) (ws := [0x0000, 0x1041]) [.host, .host, .txi 0x9000] rfl, by decide, by decide, by decide⟩

/-- Both FIFOs empty at a wrap, and as many bytes as fit. -/
theorem witness_FifoLaw : BlockInv (quiet dropP) ∧ (quiet dropP).phase = .ready ∧
    (quiet dropP).isEmpty .rx = true ∧ (quiet dropP).isEmpty .tx = true ∧
    [1, 2, 3, 4].length ≤ (quiet dropP).params.cap .rx ∧ [1, 2, 3, 4].length ≤ (quiet dropP).params.cap .tx :=
  ⟨quiet_inv, by decide⟩

theorem witness_TxLineIsAcceptedBytesInOrder : BlockInv busy ∧ busy.phase = .ready ∧
    ∃ s, runTurns [.txi 0x9000, .rxi 0x8001, .txi 0x9000] busy = some s := ⟨busy_inv, rfl, _, rfl⟩

theorem witness_RxReadsAreArrivalsInOrder : BlockInv (quiet dropP) ∧ (quiet dropP).phase = .ready ∧
    (quiet dropP).params.rxOvf = .dropNewest ∧ ∃ s, runTurns [.rxi 0x8001, .rxi 0x8002] (quiet dropP) = some s :=
  ⟨quiet_inv, rfl, rfl, _, rfl⟩

/-- Four bytes unread, three of them read. -/
theorem witness_AvailableIsAGuarantee :
    let s := { busy with program := [0x2000, 0x2000, 0x2000] }
    let ts := [Turn.host, .rxi 0x8001, .host, .host]
    BlockInv s ∧ s.phase = .ready ∧ s.params.rxOvf = .dropNewest ∧ (∃ s', runTurns ts s = some s') ∧
      (collect State.takenRx ts s).length + 1 = s.occ .rx :=
  ⟨busy_inv.congr ⟨rfl, rfl, rfl, rfl⟩ ⟨rfl, rfl, rfl, rfl⟩ rfl rfl rfl, rfl, rfl, ⟨_, rfl⟩, by decide⟩

theorem witness_CapacityPlusOneWrites : BlockInv (quiet dropP) ∧ (quiet dropP).phase = .ready ∧
    (quiet dropP).isEmpty .tx = true ∧ [1, 2, 3, 4, 5].length = (quiet dropP).params.cap .tx + 1 :=
  ⟨quiet_inv, by decide⟩

/-- One byte to transmit, and an RX FIFO that is full. -/
def lastByte : State := tx busy 0 7 [1, 2, 3, 4] true

/-- The same after its `TX_SERVICE`. -/
def lastByteSent : State := { tx busy 0 0 [1, 2, 3, 4] false with txline := [4] }

/-- `TX_SERVICE`, and then arrivals that are dropped, for ever: a weakly fair infinite execution. -/
theorem witness_AcceptedBytesAreEventuallyEmitted :
    let turns : Nat → Turn := fun n => match n with | 0 => .txi 0x9000 | _ + 1 => .rxi 0x8001
    let states : Nat → State := fun n => match n with | 0 => lastByte | _ + 1 => lastByteSent
    Execution turns states ∧ WeaklyFair turns states ∧ BlockInv (states 0) ∧ (states 0).phase = .ready ∧
      (states 0).unread .tx = [4] := by
  refine ⟨fun n => ?_, ?_, inv_of (by decide) (by decide) (by decide) (by decide), rfl, by decide⟩
  · cases n with
    | zero => rfl
    | succ n =>
      show takeTurn (.rxi 0x8001) lastByteSent = .next lastByteSent
      rfl
  · rintro ⟨n, h⟩
    exact absurd (show lastByteSent.txie = true from (h (n + 1) (Nat.le_succ n)).2) (by decide)

theorem witness_DeviceEventsCommute :
    (∃ a, exec (.rxByte 9) busy = .next a) ∧ ∃ b, exec .txService busy = .next b := ⟨⟨_, rfl⟩, _, rfl⟩

/-- A power-on state whose pointers, `txie` and buffers are not the model's reset values. -/
def oddBoot : State := tx (rx (boot dropP [0x0000]) 5 9 [7]) 3 3 [8, 9] true

theorem witness_PowerOnValuesAreUnobservable : SamePowerOn (boot dropP [0x0000]) oddBoot ∧
    (runTurns [.host, .rxi 0x8001] oddBoot).isSome = true ∧
    (Alike busy { busy with rxBuf := cells [0x31, 0x32, 0x33, 0x34], txBuf := cells [1, 9, 3, 4] } ∧
      busy.phase = .ready ∧ ∃ s', takeTurn (.txi 0x9000) busy = .next s') :=
  ⟨⟨rfl, rfl, rfl, boot_powerOn _ _, ⟨rfl, rfl, rfl, rfl, rfl, rfl, rfl, rfl, rfl⟩⟩, by decide,
    ⟨rfl, rfl, rfl, rfl, rfl, rfl, rfl, rfl, busy_inv, inv_of (by decide) (by decide) (by decide) (by decide),
      fun _ => rfl, fun _ d => by cases d <;> decide⟩, rfl, _, rfl⟩

theorem witness_PutcExpansion : (0x0B : Byte) ≠ 0x0A := by decide

/-- Two free slots, one, and none. -/
theorem witness_PutcOfLinefeedMayBePartial :
    (BlockInv busy ∧ busy.phase = .ready ∧ busy.occ .tx + 2 = busy.params.cap .tx) ∧
    (BlockInv (tx (rdy dropP) 1 6 [1, 2, 3, 4] true) ∧
      (tx (rdy dropP) 1 6 [1, 2, 3, 4] true).occ .tx + 1 = dropP.cap .tx) ∧
    (BlockInv (tx (rdy dropP) 2 6 [1, 2, 3, 4] true) ∧
      (tx (rdy dropP) 2 6 [1, 2, 3, 4] true).occ .tx = dropP.cap .tx) :=
  ⟨⟨busy_inv, by decide⟩, ⟨inv_of (by decide) (by decide) (by decide) (by decide), by decide⟩,
    inv_of (by decide) (by decide) (by decide) (by decide), by decide⟩

/-- A count at the top of its range, on a bus exactly as wide. -/
theorem witness_ResultsAreZeroExtended :
    let p := onBusOf 3 .bigEndian
    (Result.count 7).width p ≤ ((Result.count 7).register p).width ∧ (Result.count 7).number < 2 ^ (Result.count 7).width p := by decide

end Sys2Proof.Tests
end

section
/-! Where an operation, a turn and the free schedule answer a next state (spec/00_scope.md R8, R13;
spec/60_exceptions.md R117, R120), and the configuration that none of them changes (spec/00_scope.md R5). -/

namespace Sys2Proof.Machine

/-! ### Each operation as an effect of its own -/

/-- What `WRITE_BYTE b` does in `READY` but for `pc` (spec/40_host_port.md R79). -/
def writeByteEffect (b : Byte) (s : State) : State := if s.isFull .tx then s else (s.enqueue .tx b).rearm

/-- What `READ_BYTE` does in `READY` but for `pc` (spec/40_host_port.md R82, R83, R84). -/
def readByteEffect (s : State) : State :=
  if s.isEmpty .rx then s.readOnEmpty else (s.advanceOut .rx).deliverResult (.byte (s.oldest .rx))

/-- What `AVAILABLE` does in `READY` but for `pc` (spec/40_host_port.md R86). -/
def availableEffect (s : State) : State := s.deliverResult (.count (s.occ .rx))

/-- What `RX_BYTE r` does where it is enabled (spec/41_device_port.md R95). -/
def rxByteEffect (r : Byte) (s : State) : State := if s.dropsNewest then s else s.enqueue .rx r

/-- What `TX_SERVICE` does where it is enabled (spec/41_device_port.md R99). -/
def txServiceEffect (s : State) : State := s.drainOne.disarmIfEmpty

theorem exec_init_eq (s : State) : exec .init s = execInit s := rfl

theorem exec_writeByte_eq (b : Byte) (s : State) :
    exec (.writeByte b) s = hostOperation s (writeByteEffect b) := rfl

theorem exec_readByte_eq (s : State) : exec .readByte s = hostOperation s readByteEffect := rfl

theorem exec_available_eq (s : State) : exec .available s = hostOperation s availableEffect := rfl

theorem exec_rxByte_eq (r : Byte) (s : State) :
    exec (.rxByte r) s = deviceEvent .rxi true s (rxByteEffect r) := rfl

theorem exec_txService_eq (s : State) : exec .txService s = deviceEvent .txi s.txie s txServiceEffect := rfl

/-- The decoder reads back what the encoder wrote (spec/30_encoding.md R73). -/
@[simp] theorem decode_encode (i : Instr) : decode (encode i) = .ok i := by
  cases i <;> simp [encode, decode, noOperand]

/-! ### Where an operation answers a next state -/

/-- The operation has a step in `s` (R13, R77, R98, R101, R117). -/
def Instr.EnabledIn (i : Instr) (s : State) : Prop :=
  match i.issuer with
  | .host => s.phase ≠ .faulted
  | .rxi => s.phase = .ready
  | .txi => s.phase = .ready ∧ s.txie = true

/-- The three agents' conditions, as one disjunction. -/
theorem Instr.enabledIn_iff {i : Instr} {s : State} : Instr.EnabledIn i s ↔
    (i.issuer = .host ∧ s.phase ≠ .faulted) ∨ (i.issuer = .rxi ∧ s.phase = .ready) ∨
      (i.issuer = .txi ∧ s.phase = .ready ∧ s.txie = true) := by
  cases h : i.issuer <;> simp [Instr.EnabledIn, h]

theorem hostOperation_steps {s : State} (h : s.phase ≠ .faulted) (f : State → State) :
    ∃ t, hostOperation s f = .next t := by
  cases hp : s.phase with
  | uninit => exact ⟨_, hostOperation_of_uninit hp f⟩
  | ready => exact ⟨_, hostOperation_of_ready hp f⟩
  | faulted => exact absurd hp h

theorem execInit_steps {s : State} (h : s.phase ≠ .faulted) : ∃ t, execInit s = .next t := by
  cases hp : s.phase with
  | uninit => exact ⟨_, execInit_next.2 (.inl ⟨hp, rfl⟩)⟩
  | ready => exact ⟨_, execInit_next.2 (.inr ⟨hp, rfl⟩)⟩
  | faulted => exact absurd hp h

theorem execInit_of_faulted {s : State} (h : s.phase = .faulted) : execInit s = .fault (.notEnabled .host) := by
  simp [execInit, h]

/-- An enabled operation answers a next state. -/
theorem exec_steps_of_enabledIn {i : Instr} {s : State} (h : Instr.EnabledIn i s) : ∃ t, exec i s = .next t := by
  cases i with
  | init => exact execInit_steps h
  | writeByte b => exact hostOperation_steps h (writeByteEffect b)
  | readByte => exact hostOperation_steps h readByteEffect
  | available => exact hostOperation_steps h availableEffect
  | rxByte r => exact ⟨_, deviceEvent_of_ready h rfl (rxByteEffect r)⟩
  | txService =>
    obtain ⟨hp, hx⟩ := h
    exact ⟨_, deviceEvent_of_ready hp hx txServiceEffect⟩

/-- An operation that is not enabled answers `notEnabled` of its own agent. -/
theorem exec_of_not_enabledIn {i : Instr} {s : State} (h : ¬Instr.EnabledIn i s) :
    exec i s = .fault (.notEnabled i.issuer) := by
  cases i with
  | init => exact execInit_of_faulted (not_not.1 h)
  | writeByte b => exact hostOperation_of_faulted (not_not.1 h) (writeByteEffect b)
  | readByte => exact hostOperation_of_faulted (not_not.1 h) readByteEffect
  | available => exact hostOperation_of_faulted (not_not.1 h) availableEffect
  | rxByte r => exact deviceEvent_of_not (fun hr => h hr.1) (rxByteEffect r)
  | txService => exact deviceEvent_of_not h txServiceEffect

/-- Settles O6: the operation's condition, `Instr.EnabledIn`, decides between a next state and `notEnabled`. -/
theorem operationStepsExactlyWhenEnabled : Obligations.OperationStepsExactlyWhenEnabled := by
  intro i s
  rw [← Instr.enabledIn_iff]
  exact ⟨exec_steps_of_enabledIn, exec_of_not_enabledIn⟩

/-! ### The free schedule -/

/-- Outside `FAULTED` a word that arrives is answered by a next state, unless it is the agent's own operation and not
enabled. -/
theorem takeTurn_steps {u : Turn} {s : State} {w : OpWord} (hw : s.wordOf u = some w) (hp : s.phase ≠ .faulted)
    (he : ∀ i, decode w = .ok i → u.agent = i.issuer → Instr.EnabledIn i s) : ∃ t, takeTurn u s = .next t := by
  cases hd : decode w with
  | error e => exact ⟨_, takeTurn_next.2 ⟨hp, w, hw, .inl ⟨e, hd, rfl⟩⟩⟩
  | ok i =>
    by_cases hi : u.agent = i.issuer
    · rw [takeTurn_of_decode hw hd hi hp]
      exact exec_steps_of_enabledIn (he i hd hi)
    · exact ⟨_, takeTurn_next.2 ⟨hp, w, hw, .inr (.inl ⟨i, hd, hi, rfl⟩)⟩⟩

/-- The turns the free schedule may take are the enabled agents', each with a word of its own. -/
theorem State.mem_enabledTurns {s : State} {u : Turn} : u ∈ s.enabledTurns ↔
    (u = .host ∧ s.enabled .host = true) ∨
      (u = .rxi (encode (.rxByte (Config.arrival s.draws))) ∧ s.enabled .rxi = true) ∨
      (u = .txi (encode .txService) ∧ s.enabled .txi = true) := by
  simp [State.enabledTurns, and_comm]

theorem State.enabledTurns_eq_nil_iff {s : State} : s.enabledTurns = [] ↔ ∀ a, s.enabled a = false := by
  constructor
  · intro h a
    cases a <;> simp_all [State.enabledTurns]
  · intro h
    simp [State.enabledTurns, h]

/-- A free choice is one of the turns it is made among. -/
theorem chooseTurn_mem (n : Nat) (u : Turn) (us : List Turn) : chooseTurn n u us ∈ u :: us := by
  cases us with
  | nil => exact List.mem_singleton_self u
  | cons v us =>
    have hlt : Config.choice n % ((v :: us).length + 1) < (u :: v :: us).length := Nat.mod_lt _ (Nat.succ_pos _)
    simp only [chooseTurn, List.getElem?_eq_getElem hlt, Option.getD_some]
    exact List.getElem_mem hlt

theorem State.enabled_host_iff {s : State} :
    s.enabled .host = true ↔ s.phase ≠ .faulted ∧ s.pc < s.program.length := by simp [State.enabled]

theorem State.enabled_rxi_iff {s : State} : s.enabled .rxi = true ↔ s.phase = .ready := by simp [State.enabled]

theorem State.enabled_txi_iff {s : State} : s.enabled .txi = true ↔ s.phase = .ready ∧ s.txie = true := by
  simp [State.enabled]

/-- The host's turn answers a next state wherever `HOST` is enabled: an illegal or foreign word faults. -/
theorem takeTurn_host_steps {s : State} (h : s.enabled .host = true) : ∃ t, takeTurn .host s = .next t := by
  obtain ⟨hp, hpc⟩ := State.enabled_host_iff.1 h
  refine takeTurn_steps (List.getElem?_eq_getElem hpc) hp fun i _ hi => ?_
  exact Instr.enabledIn_iff.2 (.inl ⟨hi.symm, hp⟩)

/-- A turn that delivers its agent's own enabled operation answers a next state. -/
theorem takeTurn_encode_steps {u : Turn} {s : State} {i : Instr} (hw : s.wordOf u = some (encode i))
    (hp : s.phase ≠ .faulted) (h : Instr.EnabledIn i s) : ∃ t, takeTurn u s = .next t := by
  refine takeTurn_steps hw hp fun j hj _ => ?_
  obtain rfl : i = j := by simpa using hj
  exact h

/-- `draws` is read by no enabling condition, so an enabled turn can be taken after the choice that picked it. -/
theorem State.enabled_draws (s : State) (n : Nat) (a : Agent) : { s with draws := n }.enabled a = s.enabled a := by
  cases a <;> rfl

/-- Every turn the free schedule may take answers a next state. -/
theorem takeTurn_steps_of_mem_enabledTurns {s : State} {u : Turn} (h : u ∈ s.enabledTurns) (n : Nat) :
    ∃ t, takeTurn u { s with draws := n } = .next t := by
  rcases State.mem_enabledTurns.1 h with ⟨rfl, he⟩ | ⟨rfl, he⟩ | ⟨rfl, he⟩
  · exact takeTurn_host_steps ((s.enabled_draws n .host).trans he)
  · have hr := State.enabled_rxi_iff.1 he
    exact takeTurn_encode_steps rfl (by simp [hr]) hr
  · have ht := State.enabled_txi_iff.1 he
    exact takeTurn_encode_steps rfl (by simp [ht.1]) ht

/-- With no turn placed and a turn enabled, the next turn is a free choice among the enabled ones. -/
theorem State.nextTurn_of_free {s : State} (ha : s.agenda = []) (h : s.enabledTurns ≠ []) :
    ∃ u ∈ s.enabledTurns, s.nextTurn = some (u, { s with draws := s.draws + 1 }) := by
  obtain ⟨u, us, hu⟩ := List.exists_cons_of_ne_nil h
  refine ⟨chooseTurn s.draws u us, hu ▸ chooseTurn_mem s.draws u us, ?_⟩
  simp [State.nextTurn, ha, hu]

theorem State.nextTurn_eq_none {s : State} (ha : s.agenda = []) (h : s.enabledTurns = []) : s.nextTurn = none := by
  simp [State.nextTurn, ha, h]

/-- Settles O5: the free choice is an enabled turn, and every enabled turn answers a next state. -/
theorem freeScheduleTakesAnEnabledTurn : Obligations.FreeScheduleTakesAnEnabledTurn := by
  intro s ha
  constructor
  · rintro ⟨a, hen⟩
    have hne : s.enabledTurns ≠ [] := fun h => by simp [State.enabledTurns_eq_nil_iff.1 h a] at hen
    obtain ⟨u, hu, hnext⟩ := State.nextTurn_of_free ha hne
    obtain ⟨t, ht⟩ := takeTurn_steps_of_mem_enabledTurns hu (s.draws + 1)
    exact ⟨t, step_next.2 ⟨u, _, hnext, ht⟩⟩
  · intro hnone
    simp [step, State.nextTurn_eq_none ha (State.enabledTurns_eq_nil_iff.2 hnone)]

/-! ### The configuration -/

/-- `t` has the configuration of `s`: the parameters and the host program (R5; spec/10_state.md R32). -/
structure SameConfig (s t : State) : Prop where
  params : t.params = s.params
  program : t.program = s.program

theorem SameConfig.refl (s : State) : SameConfig s s := ⟨rfl, rfl⟩

theorem SameConfig.trans {s t u : State} (h : SameConfig s t) (h' : SameConfig t u) : SameConfig s u :=
  ⟨h'.params.trans h.params, h'.program.trans h.program⟩

theorem State.enqueue_sameConfig (s : State) (d : Fifo) (v : Byte) : SameConfig s (s.enqueue d v) := by
  cases d <;> exact ⟨rfl, rfl⟩

theorem State.rearm_sameConfig (s : State) : SameConfig s s.rearm := by
  rw [State.rearm_eq]
  exact ⟨rfl, rfl⟩

theorem State.readOnEmpty_sameConfig (s : State) : SameConfig s s.readOnEmpty := by
  obtain ⟨v, n, h⟩ := s.readOnEmpty_eq
  rw [h]
  exact ⟨rfl, rfl⟩

theorem State.drainOne_sameConfig (s : State) : SameConfig s s.drainOne := by
  unfold State.drainOne
  split_ifs
  · exact .refl s
  · exact ⟨rfl, rfl⟩

theorem State.disarmIfEmpty_sameConfig (s : State) : SameConfig s s.disarmIfEmpty := by
  unfold State.disarmIfEmpty
  split_ifs
  · exact ⟨rfl, rfl⟩
  · exact .refl s

theorem writeByteEffect_sameConfig (b : Byte) (s : State) : SameConfig s (writeByteEffect b s) := by
  unfold writeByteEffect
  split_ifs
  · exact .refl s
  · exact (s.enqueue_sameConfig .tx b).trans (State.rearm_sameConfig _)

theorem readByteEffect_sameConfig (s : State) : SameConfig s (readByteEffect s) := by
  unfold readByteEffect
  split_ifs
  · exact s.readOnEmpty_sameConfig
  · exact ⟨rfl, rfl⟩

theorem rxByteEffect_sameConfig (r : Byte) (s : State) : SameConfig s (rxByteEffect r s) := by
  unfold rxByteEffect
  split_ifs
  · exact .refl s
  · exact s.enqueue_sameConfig .rx r

/-- A host operation keeps the configuration if its effect does. -/
theorem hostOperation_sameConfig {s t : State} {f : State → State} (hf : SameConfig s (f s))
    (h : hostOperation s f = .next t) : SameConfig s t := by
  rcases hostOperation_next.1 h with ⟨_, rfl⟩ | ⟨_, rfl⟩
  · exact ⟨rfl, rfl⟩
  · exact hf.trans ⟨rfl, rfl⟩

/-- A device event keeps the configuration if its effect does. -/
theorem deviceEvent_sameConfig {a : Agent} {armed : Bool} {s t : State} {f : State → State}
    (hf : SameConfig s (f s)) (h : deviceEvent a armed s f = .next t) : SameConfig s t := by
  obtain ⟨_, _, rfl⟩ := deviceEvent_next.1 h
  exact hf

theorem exec_sameConfig {i : Instr} {s t : State} (h : exec i s = .next t) : SameConfig s t := by
  cases i with
  | init => rcases execInit_next.1 h with ⟨_, rfl⟩ | ⟨_, rfl⟩ <;> exact ⟨rfl, rfl⟩
  | writeByte b => exact hostOperation_sameConfig (writeByteEffect_sameConfig b s) h
  | readByte => exact hostOperation_sameConfig (readByteEffect_sameConfig s) h
  | available => exact hostOperation_sameConfig (f := availableEffect) ⟨rfl, rfl⟩ h
  | rxByte r => exact deviceEvent_sameConfig (rxByteEffect_sameConfig r s) h
  | txService =>
    have hf : SameConfig s (txServiceEffect s) := s.drainOne_sameConfig.trans (State.disarmIfEmpty_sameConfig _)
    exact deviceEvent_sameConfig hf h

theorem takeTurn_sameConfig {u : Turn} {s t : State} (h : takeTurn u s = .next t) : SameConfig s t := by
  rcases takeTurn_cases h with ⟨c, _, _, _, rfl⟩ | ⟨i, _, _, he⟩
  · exact ⟨rfl, rfl⟩
  · exact exec_sameConfig he

/-- Settles O38: the state left for the next turn has the configuration, and every turn keeps it. -/
theorem parametersNeverChange : Obligations.ParametersNeverChange := by
  intro s t h
  obtain ⟨u, s', hn, ht⟩ := step_next.1 h
  obtain ⟨l, n, rfl⟩ := State.nextTurn_state hn
  obtain ⟨hparams, hprogram⟩ := takeTurn_sameConfig ht
  exact ⟨hparams, hprogram⟩

end Sys2Proof.Machine
end

section
/-! Every operation, and so every turn, keeps the invariant `BlockInv` (spec/10_state.md R35, R36, R37). -/

namespace Sys2Proof.Machine

/-- A power-on state meets the invariant (spec/10_state.md R40). -/
theorem PowerOn.blockInv {s : State} (h : PowerOn s) : BlockInv s where
  rxWf := h.rxWf
  txWf := h.txWf
  rxBelow := h.rxBelow
  txBelow := h.txBelow
  fault := by simp [h.phase, h.faultCode]
  ready := by simp [h.phase]

theorem BlockInv.advancePc {s : State} (h : BlockInv s) : BlockInv s.advancePc :=
  h.congr ⟨rfl, rfl, rfl, rfl⟩ ⟨rfl, rfl, rfl, rfl⟩ rfl rfl rfl

theorem BlockInv.deliverResult {s : State} (h : BlockInv s) (v : Result) : BlockInv (s.deliverResult v) :=
  h.congr ⟨rfl, rfl, rfl, rfl⟩ ⟨rfl, rfl, rfl, rfl⟩ rfl rfl rfl

theorem BlockInv.readOnEmpty {s : State} (h : BlockInv s) : BlockInv s.readOnEmpty := by
  obtain ⟨v, n, he⟩ := s.readOnEmpty_eq
  rw [he]
  exact h.congr ⟨rfl, rfl, rfl, rfl⟩ ⟨rfl, rfl, rfl, rfl⟩ rfl rfl rfl

/-- Equal pointers bound no unread byte. -/
theorem State.initialised_occ (s : State) (d : Fifo) : s.initialised.occ d = 0 := by
  cases d <;> simp [State.occ, subMod]

theorem FifoInv.initialised (s : State) (d : Fifo) : FifoInv s.initialised d where
  inRange := by cases d <;> exact two_pow_pos _
  outRange := by cases d <;> exact two_pow_pos _
  written j hj := by simp [State.initialised_occ] at hj

theorem BlockInv.initialised {s : State} (h : BlockInv s) (hp : s.phase = .uninit) : BlockInv s.initialised where
  rxWf := h.rxWf
  txWf := h.txWf
  rxBelow := h.rxBelow
  txBelow := h.txBelow
  fault := by
    have hf := h.fault
    simp only [hp] at hf
    simpa using hf
  ready _ := {
    rx := .initialised s .rx
    tx := .initialised s .tx
    txBound := by simp [State.initialised_occ]
    rxBound := by simp [State.initialised_occ]
    armed := by simp [State.initialised_occ] }

/-- Reading a byte of a non-empty RX FIFO keeps the invariant, in overrun too. -/
theorem BlockInv.advanceOut_rx {s : State} (h : BlockInv s) (hp : s.phase = .ready)
    (he : s.isEmpty .rx = false) : BlockInv (s.advanceOut .rx) where
  rxWf := h.rxWf
  txWf := h.txWf
  rxBelow := h.rxBelow
  txBelow := h.txBelow
  fault := h.fault
  ready _ := by
    have hi := h.ready hp
    have hsf := s.advanceOut_sameFifo (d := .rx) (e := .tx) (by decide)
    have ho := State.advanceOut_occ hi.rx.inRange hi.rx.outRange he
    exact {
      rx := hi.rx.advanceOut he
      tx := hsf.fifoInv hi.tx
      txBound := by rw [hsf.occ]; exact hi.txBound
      rxBound := fun hov => by
        have hb := hi.rxBound hov
        rw [ho, State.advanceOut_params]
        omega
      armed := by rw [hsf.occ]; exact hi.armed }

theorem BlockInv.writeByteEffect {s : State} (h : BlockInv s) (hp : s.phase = .ready) (b : Byte) :
    BlockInv (writeByteEffect b s) := by
  unfold Machine.writeByteEffect
  split_ifs with hfull
  · exact h
  · rw [State.rearm_eq]
    exact h.enqueue_tx hp b (Bool.eq_false_iff.2 hfull)

theorem BlockInv.readByteEffect {s : State} (h : BlockInv s) (hp : s.phase = .ready) :
    BlockInv (readByteEffect s) := by
  unfold Machine.readByteEffect
  split_ifs with hemp
  · exact h.readOnEmpty
  · exact (h.advanceOut_rx hp (Bool.eq_false_iff.2 hemp)).deliverResult _

theorem BlockInv.rxByteEffect {s : State} (h : BlockInv s) (hp : s.phase = .ready) (r : Byte) :
    BlockInv (rxByteEffect r s) := by
  unfold Machine.rxByteEffect
  split_ifs with hdrop
  · exact h
  · exact h.enqueue_rx hp r (Bool.eq_false_iff.2 hdrop)

/-- A host operation keeps the invariant if its effect in `READY` does. -/
theorem BlockInv.hostOperation {s t : State} {f : State → State} (h : BlockInv s)
    (hf : s.phase = .ready → BlockInv (f s)) (he : hostOperation s f = .next t) : BlockInv t := by
  rcases hostOperation_next.1 he with ⟨_, rfl⟩ | ⟨hp, rfl⟩
  · exact h.raiseFault (by decide)
  · exact (hf hp).advancePc

/-- Every operation keeps the invariant. -/
theorem BlockInv.exec {i : Instr} {s t : State} (h : BlockInv s) (he : exec i s = .next t) : BlockInv t := by
  cases i with
  | init =>
    rcases execInit_next.1 he with ⟨hp, rfl⟩ | ⟨_, rfl⟩
    · exact (h.initialised hp).advancePc
    · exact h.raiseFault (by decide)
  | writeByte b => exact h.hostOperation (fun hp => h.writeByteEffect hp b) he
  | readByte => exact h.hostOperation h.readByteEffect he
  | available => exact h.hostOperation (f := availableEffect) (fun _ => h.deliverResult _) he
  | rxByte r =>
    obtain ⟨hp, rfl⟩ := execRxByte_next.1 he
    exact h.rxByteEffect hp r
  | txService =>
    obtain ⟨hp, hx, rfl⟩ := execTxService_next.1 he
    exact h.drain hp hx

/-- Every turn of every agent keeps the invariant. -/
theorem BlockInv.takeTurn {u : Turn} {s t : State} (h : BlockInv s) (ht : takeTurn u s = .next t) : BlockInv t := by
  rcases takeTurn_cases ht with ⟨c, hc, _, _, rfl⟩ | ⟨i, _, _, he⟩
  · exact h.raiseFault hc
  · exact h.exec he

end Sys2Proof.Machine
end

section
/-! Noninterference of what power-on leaves unspecified (spec/10_state.md R40, R42): two states that show the same, and
that every operation keeps so. -/

namespace Sys2Proof.Machine

/-! ### Two states that show the same -/

/-- `s` and `t` differ in the schedule and in the cells without an unread byte alone. In `READY`, and with the
invariant, this is `Alike` (`Alike.sameView`, `SameView.alike`); unlike `Alike` it is kept by each update by itself. -/
structure SameView (s t : State) : Prop where
  params : s.params = t.params
  program : s.program = t.program
  draws : s.draws = t.draws
  txline : s.txline = t.txline
  results : s.results = t.results
  pc : s.pc = t.pc
  registers : s.registers = t.registers
  unread : ∀ d, s.unread d = t.unread d

theorem Alike.sameView {s t : State} (h : Alike s t) (hp : s.phase = .ready) : SameView s t :=
  ⟨h.params, h.program, h.draws, h.txline, h.results, h.pc, h.registers hp, h.unread hp⟩

theorem SameView.phase {s t : State} (h : SameView s t) : s.phase = t.phase :=
  congrArg Registers.phase h.registers

theorem SameView.txie {s t : State} (h : SameView s t) : s.txie = t.txie :=
  congrArg Registers.txie h.registers

theorem SameView.alike {s t : State} (h : SameView s t) (hs : BlockInv s) (ht : BlockInv t) : Alike s t :=
  ⟨h.params, h.program, h.draws, h.phase, congrArg Registers.faultCode h.registers, h.txline, h.results, h.pc, hs, ht,
    fun _ => h.registers, fun _ => h.unread⟩

theorem SameView.inPtr {s t : State} (h : SameView s t) (d : Fifo) : s.inPtr d = t.inPtr d := by
  cases d
  · exact congrArg Registers.rxIn h.registers
  · exact congrArg Registers.txIn h.registers

theorem SameView.outPtr {s t : State} (h : SameView s t) (d : Fifo) : s.outPtr d = t.outPtr d := by
  cases d
  · exact congrArg Registers.rxOut h.registers
  · exact congrArg Registers.txOut h.registers

theorem SameView.occ {s t : State} (h : SameView s t) (d : Fifo) : s.occ d = t.occ d := by
  simp only [State.occ, h.params, h.inPtr, h.outPtr]

theorem SameView.isEmpty {s t : State} (h : SameView s t) (d : Fifo) : s.isEmpty d = t.isEmpty d := by
  simp only [State.isEmpty, h.inPtr, h.outPtr]

theorem SameView.isFull {s t : State} (h : SameView s t) (d : Fifo) : s.isFull d = t.isFull d := by
  simp only [State.isFull, h.occ, h.params]

theorem SameView.dropsNewest {s t : State} (h : SameView s t) : s.dropsNewest = t.dropsNewest := by
  simp only [State.dropsNewest, h.params, h.isFull]

theorem SameView.inSlot {s t : State} (h : SameView s t) (d : Fifo) : s.inSlot d = t.inSlot d := by
  simp only [State.inSlot, h.params, h.inPtr]

theorem SameView.unreadSlot {s t : State} (h : SameView s t) (d : Fifo) (j : Nat) :
    s.unreadSlot d j = t.unreadSlot d j := by
  simp only [State.unreadSlot, h.params, h.outPtr]

/-- The unread bytes of two states with the same occupancy, cell by cell. -/
theorem State.unread_eq_iff {s t : State} {d : Fifo} (ho : s.occ d = t.occ d) : s.unread d = t.unread d ↔
    ∀ j < s.occ d, s.cell d (s.unreadSlot d j) = t.cell d (t.unreadSlot d j) := by
  simp only [State.unread, ← ho, List.map_inj_left, List.mem_range]

/-! ### Each update keeps it -/

theorem SameView.advancePc {s t : State} (h : SameView s t) : SameView s.advancePc t.advancePc :=
  ⟨h.params, h.program, h.draws, h.txline, h.results, congrArg (· + 1) h.pc, h.registers, h.unread⟩

theorem SameView.deliverResult {s t : State} (h : SameView s t) (v : Result) :
    SameView (s.deliverResult v) (t.deliverResult v) :=
  ⟨h.params, h.program, h.draws, h.txline, congrArg (· ++ [v]) h.results, h.pc, h.registers, h.unread⟩

theorem SameView.deliverDraw {s t : State} (h : SameView s t) : SameView s.deliverDraw t.deliverDraw := by
  refine ⟨h.params, h.program, congrArg (· + 1) h.draws, h.txline, ?_, h.pc, h.registers, h.unread⟩
  simp [h.results, h.draws]

theorem SameView.emit {s t : State} (h : SameView s t) (b : Byte) : SameView (s.emit b) (t.emit b) :=
  ⟨h.params, h.program, h.draws, congrArg (· ++ [b]) h.txline, h.results, h.pc, h.registers, h.unread⟩

theorem SameView.setTxie {s t : State} (h : SameView s t) (v : Bool) : SameView (s.setTxie v) (t.setTxie v) :=
  ⟨h.params, h.program, h.draws, h.txline, h.results, h.pc,
    congrArg (fun r : Registers => { r with txie := v }) h.registers, h.unread⟩

theorem SameView.raiseFault {s t : State} (h : SameView s t) (c : FaultCode) :
    SameView (s.raiseFault c) (t.raiseFault c) :=
  ⟨h.params, h.program, h.draws, h.txline, h.results, h.pc,
    congrArg (fun r : Registers => { r with phase := .faulted, faultCode := c }) h.registers, h.unread⟩

/-- A producer writes the same slot of both FIFOs, and a cell that becomes unread is the one it wrote. -/
theorem SameView.enqueue_unread {s t : State} (h : SameView s t) {d : Fifo} (hs : FifoInv s d) (v : Byte) :
    (s.enqueue d v).unread d = (t.enqueue d v).unread d := by
  have hocc : (s.enqueue d v).occ d = (t.enqueue d v).occ d := by simp only [State.enqueue_occ, h.occ, h.params]
  refine (State.unread_eq_iff hocc).2 fun j hj => ?_
  simp only [State.enqueue_unreadSlot, State.enqueue_cell, true_and, ← h.unreadSlot, ← h.inSlot]
  split_ifs with hslot
  · rfl
  · have hle : j ≤ s.occ d := by
      rw [State.enqueue_occ] at hj
      exact Nat.lt_succ_iff.1 (lt_of_lt_of_le hj (Nat.mod_le _ _))
    have hne : j ≠ s.occ d := fun he => hslot (he ▸ State.unreadSlot_occ hs.inRange hs.outRange)
    have hcell := (State.unread_eq_iff (h.occ d)).1 (h.unread d) j (lt_of_le_of_ne hle hne)
    rwa [← h.unreadSlot] at hcell

theorem SameView.enqueue {s t : State} (h : SameView s t) {d : Fifo} (hs : FifoInv s d) (v : Byte) :
    SameView (s.enqueue d v) (t.enqueue d v) where
  params := by simpa using h.params
  program := by cases d <;> exact h.program
  draws := by cases d <;> exact h.draws
  txline := by cases d <;> exact h.txline
  results := by cases d <;> exact h.results
  pc := by cases d <;> exact h.pc
  registers := by
    have hr := State.registers_eq.1 h.registers
    cases d <;> simp [State.registers_eq, State.enqueue, hr, h.params]
  unread e := by
    by_cases he : e = d
    · subst he
      exact h.enqueue_unread hs v
    · rw [(s.enqueue_sameFifo he v).unread, (t.enqueue_sameFifo he v).unread, h.unread]

/-- The oldest unread byte, and the others, are the same in both. -/
theorem SameView.unread_cons {s t : State} (h : SameView s t) {d : Fifo} (hs : FifoInv s d) (ht : FifoInv t d)
    (he : s.isEmpty d = false) :
    s.oldest d = t.oldest d ∧ (s.advanceOut d).unread d = (t.advanceOut d).unread d := by
  have hu := h.unread d
  rw [State.unread_advanceOut hs.inRange hs.outRange he,
    State.unread_advanceOut ht.inRange ht.outRange (h.isEmpty d ▸ he)] at hu
  exact List.cons.inj hu

theorem SameView.advanceOut {s t : State} (h : SameView s t) {d : Fifo} (hs : FifoInv s d) (ht : FifoInv t d)
    (he : s.isEmpty d = false) : SameView (s.advanceOut d) (t.advanceOut d) where
  params := by simpa using h.params
  program := by simpa using h.program
  draws := by simpa using h.draws
  txline := by simpa using h.txline
  results := by simpa using h.results
  pc := by simpa using h.pc
  registers := by
    have hr := State.registers_eq.1 h.registers
    cases d <;> simp [State.registers_eq, hr, h.params]
  unread e := by
    by_cases hed : e = d
    · subst hed
      exact (h.unread_cons hs ht he).2
    · rw [(s.advanceOut_sameFifo hed).unread, (t.advanceOut_sameFifo hed).unread, h.unread]

theorem SameView.readOnEmpty {s t : State} (h : SameView s t) : SameView s.readOnEmpty t.readOnEmpty := by
  unfold State.readOnEmpty
  rw [← h.params]
  cases s.params.rxUdf with
  | sentinelZero => exact h.deliverResult _
  | stale => exact h.deliverDraw

theorem SameView.drainOne {s t : State} (h : SameView s t) (hs : FifoInv s .tx) (ht : FifoInv t .tx) :
    SameView s.drainOne t.drainOne := by
  unfold State.drainOne
  rw [← h.isEmpty]
  split_ifs with he
  · exact h
  · have he := Bool.eq_false_iff.2 he
    rw [(h.unread_cons hs ht he).1]
    exact (h.advanceOut hs ht he).emit _

theorem SameView.disarmIfEmpty {s t : State} (h : SameView s t) : SameView s.disarmIfEmpty t.disarmIfEmpty := by
  unfold State.disarmIfEmpty
  rw [← h.isEmpty]
  split_ifs
  · exact h.setTxie false
  · exact h

/-! ### Every operation in `READY` keeps it -/

theorem SameView.writeByteEffect {s t : State} (h : SameView s t) (hs : FifoInv s .tx) (b : Byte) :
    SameView (writeByteEffect b s) (writeByteEffect b t) := by
  unfold Machine.writeByteEffect
  rw [← h.isFull, State.rearm_eq, State.rearm_eq]
  split_ifs
  · exact h
  · exact (h.enqueue hs b).setTxie true

theorem SameView.readByteEffect {s t : State} (h : SameView s t) (hs : FifoInv s .rx) (ht : FifoInv t .rx) :
    SameView (readByteEffect s) (readByteEffect t) := by
  unfold Machine.readByteEffect
  rw [← h.isEmpty]
  split_ifs with he
  · exact h.readOnEmpty
  · have he := Bool.eq_false_iff.2 he
    rw [(h.unread_cons hs ht he).1]
    exact (h.advanceOut hs ht he).deliverResult _

theorem SameView.availableEffect {s t : State} (h : SameView s t) :
    SameView (availableEffect s) (availableEffect t) := by
  unfold Machine.availableEffect
  rw [h.occ]
  exact h.deliverResult _

theorem SameView.rxByteEffect {s t : State} (h : SameView s t) (hs : FifoInv s .rx) (r : Byte) :
    SameView (rxByteEffect r s) (rxByteEffect r t) := by
  unfold Machine.rxByteEffect
  rw [← h.dropsNewest]
  split_ifs
  · exact h
  · exact h.enqueue hs r

/-- A host operation in `READY` keeps the view if its effect does. -/
theorem SameView.hostOperation {s t s' : State} {f : State → State} (h : SameView s t) (hp : s.phase = .ready)
    (hf : SameView (f s) (f t)) (he : hostOperation s f = .next s') :
    ∃ t', hostOperation t f = .next t' ∧ SameView s' t' := by
  obtain rfl : (f s).advancePc = s' := by simpa [hostOperation_of_ready hp] using he
  exact ⟨_, hostOperation_of_ready (h.phase ▸ hp) f, hf.advancePc⟩

/-- An operation that `s` answers in `READY`, `t` answers too, and they show the same after it. -/
theorem SameView.exec {i : Instr} {s t s' : State} (h : SameView s t) (hs : ReadyInv s) (ht : ReadyInv t)
    (hp : s.phase = .ready) (he : exec i s = .next s') : ∃ t', exec i t = .next t' ∧ SameView s' t' := by
  have hpt : t.phase = .ready := h.phase ▸ hp
  cases i with
  | init =>
    obtain rfl : s.raiseFault .reinit = s' := by simpa [exec_init_eq, execInit, hp] using he
    exact ⟨_, execInit_next.2 (.inr ⟨hpt, rfl⟩), h.raiseFault _⟩
  | writeByte b => exact h.hostOperation hp (h.writeByteEffect hs.tx b) he
  | readByte => exact h.hostOperation hp (h.readByteEffect hs.rx ht.rx) he
  | available => exact h.hostOperation hp h.availableEffect he
  | rxByte r =>
    obtain ⟨_, rfl⟩ := execRxByte_next.1 he
    exact ⟨_, execRxByte_next.2 ⟨hpt, rfl⟩, h.rxByteEffect hs.rx r⟩
  | txService =>
    obtain ⟨_, hx, rfl⟩ := execTxService_next.1 he
    exact ⟨_, execTxService_next.2 ⟨hpt, h.txie ▸ hx, rfl⟩, (h.drainOne hs.tx ht.tx).disarmIfEmpty⟩

/-! ### `Alike` is kept by every turn -/

/-- What a turn or an operation taken from alike states must show: alike next states, with the same registers if it
was taken in `READY`. -/
def AlikeFrom (s s' t' : State) : Prop := Alike s' t' ∧ (s.phase = .ready → s'.registers = t'.registers)

/-- The same fault in both: no register but `phase` and `fault_code` changes, and `FAULTED` shows no more. -/
theorem Alike.raiseFault {s t : State} (h : Alike s t) {c : FaultCode} (hc : c ≠ .noFault) :
    AlikeFrom s (s.raiseFault c) (t.raiseFault c) where
  left := {
    params := h.params
    program := h.program
    draws := h.draws
    phase := rfl
    faultCode := rfl
    txline := h.txline
    results := h.results
    pc := h.pc
    left := h.left.raiseFault hc
    right := h.right.raiseFault hc
    registers := by simp
    unread := by simp }
  right hp := ((h.sameView hp).raiseFault c).registers

/-- `INIT` writes every register that power-on leaves unspecified, and leaves no byte unread (R40, R41). -/
theorem Alike.initialised {s t : State} (h : Alike s t) : SameView s.initialised.advancePc t.initialised.advancePc where
  params := h.params
  program := h.program
  draws := h.draws
  txline := h.txline
  results := h.results
  pc := congrArg (· + 1) h.pc
  registers := by simp [State.registers, h.faultCode]
  unread d := (State.unread_eq_nil (s.initialised_occ d)).trans (State.unread_eq_nil (t.initialised_occ d)).symm

/-- Before `INIT` an operation answers nothing but a successful `INIT` and the fault `F_UNINIT` (R110). -/
theorem exec_next_of_uninit {i : Instr} {s s' : State} (hp : s.phase = .uninit) : exec i s = .next s' ↔
    (i = .init ∧ s' = s.initialised.advancePc) ∨
      (i ≠ .init ∧ i.issuer = .host ∧ s' = s.raiseFault .uninit) := by
  cases i with
  | init => simp [exec_init_eq, execInit_next, hp]
  | writeByte b => simp [exec_writeByte_eq, hostOperation_next, hp, Instr.issuer]
  | readByte => simp [exec_readByte_eq, hostOperation_next, hp, Instr.issuer]
  | available => simp [exec_available_eq, hostOperation_next, hp, Instr.issuer]
  | rxByte r => simp [exec_rxByte_eq, deviceEvent_next, hp, Instr.issuer]
  | txService => simp [exec_txService_eq, deviceEvent_next, hp, Instr.issuer]

/-- No operation answers a next state in `FAULTED` (R117). -/
theorem phase_ne_faulted_of_exec {i : Instr} {s s' : State} (h : exec i s = .next s') : s.phase ≠ .faulted := by
  intro hp
  have hn : ¬Instr.EnabledIn i s := by simp [Instr.enabledIn_iff, hp]
  simp [exec_of_not_enabledIn hn] at h

/-- An operation that one of two alike states answers, the other answers too, and they stay alike. -/
theorem Alike.exec {i : Instr} {s t s' : State} (h : Alike s t) (he : exec i s = .next s') :
    ∃ t', exec i t = .next t' ∧ AlikeFrom s s' t' := by
  cases hp : s.phase with
  | uninit =>
    have hpt : t.phase = .uninit := h.phase ▸ hp
    rcases (exec_next_of_uninit hp).1 he with ⟨hi, rfl⟩ | ⟨hi, hhost, rfl⟩
    · have halike := h.initialised.alike (h.left.initialised hp).advancePc (h.right.initialised hpt).advancePc
      exact ⟨_, (exec_next_of_uninit hpt).2 (.inl ⟨hi, rfl⟩), halike, by simp [hp]⟩
    · exact ⟨_, (exec_next_of_uninit hpt).2 (.inr ⟨hi, hhost, rfl⟩), h.raiseFault (by decide)⟩
  | ready =>
    have hinv := h.left.ready hp
    have hinv' := h.right.ready (h.phase ▸ hp)
    obtain ⟨t', ht', hview⟩ := (h.sameView hp).exec hinv hinv' hp he
    exact ⟨t', ht', hview.alike (h.left.exec he) (h.right.exec ht'), fun _ => hview.registers⟩
  | faulted => exact absurd hp (phase_ne_faulted_of_exec he)

theorem Alike.wordOf {s t : State} (h : Alike s t) (u : Turn) : s.wordOf u = t.wordOf u := by
  cases u <;> simp [State.wordOf, h.program, h.pc]

/-- A turn that one of two alike states answers, the other answers too, and they stay alike. -/
theorem Alike.takeTurn {u : Turn} {s t s' : State} (h : Alike s t) (hu : takeTurn u s = .next s') :
    ∃ t', takeTurn u t = .next t' ∧ AlikeFrom s s' t' := by
  obtain ⟨hp, w, hw, hcases⟩ := takeTurn_next.1 hu
  have hpt : t.phase ≠ .faulted := h.phase ▸ hp
  have hwt : t.wordOf u = some w := h.wordOf u ▸ hw
  rcases hcases with ⟨e, hd, rfl⟩ | ⟨i, hd, hi, rfl⟩ | ⟨i, hd, hi, he⟩
  · exact ⟨_, takeTurn_next.2 ⟨hpt, w, hwt, .inl ⟨e, hd, rfl⟩⟩, h.raiseFault (by decide)⟩
  · exact ⟨_, takeTurn_next.2 ⟨hpt, w, hwt, .inr (.inl ⟨i, hd, hi, rfl⟩)⟩, h.raiseFault (by decide)⟩
  · obtain ⟨t', ht', hfrom⟩ := h.exec he
    exact ⟨t', takeTurn_next.2 ⟨hpt, w, hwt, .inr (.inr ⟨i, hd, hi, ht'⟩)⟩, hfrom⟩

theorem runTurns_cons {u : Turn} {us : List Turn} {s s' : State} : runTurns (u :: us) s = some s' ↔
    ∃ v, takeTurn u s = .next v ∧ runTurns us v = some s' := by
  cases h : takeTurn u s <;> simp [runTurns, h]

/-- A schedule that runs from one of two alike states runs from the other, and they stay alike. -/
theorem Alike.runTurns {us : List Turn} {s t s' : State} (h : Alike s t) (hr : runTurns us s = some s') :
    ∃ t', runTurns us t = some t' ∧ Alike s' t' := by
  induction us generalizing s t with
  | nil =>
    obtain rfl : s = s' := Option.some.inj hr
    exact ⟨t, rfl, h⟩
  | cons u us ih =>
    obtain ⟨v, hv, hrest⟩ := runTurns_cons.1 hr
    obtain ⟨v', hv', hfrom⟩ := h.takeTurn hv
    obtain ⟨t', ht', halike⟩ := ih hfrom.1 hrest
    exact ⟨t', runTurns_cons.2 ⟨v', hv', ht'⟩, halike⟩

/-- Power-on states that agree on what power-on specifies are alike: before `INIT` nothing else is shown. -/
theorem SamePowerOn.alike {s t : State} (h : SamePowerOn s t) : Alike s t where
  params := h.params
  program := h.program
  draws := h.draws
  phase := h.left.phase.trans h.right.phase.symm
  faultCode := h.left.faultCode.trans h.right.faultCode.symm
  txline := h.left.txline.trans h.right.txline.symm
  results := h.left.results.trans h.right.results.symm
  pc := h.left.pc.trans h.right.pc.symm
  left := h.left.blockInv
  right := h.right.blockInv
  registers := by simp [h.left.phase]
  unread := by simp [h.left.phase]

/-- Settles O56: `Alike` holds at power-on, every turn keeps it in both directions, and so every schedule does. -/
theorem powerOnValuesAreUnobservable : Obligations.PowerOnValuesAreUnobservable := by
  refine ⟨fun s t => SamePowerOn.alike, fun u s t h => ⟨fun s' => h.takeTurn, fun t' ht => ?_⟩, ?_⟩
  · obtain ⟨s', hs', _⟩ := h.symm.takeTurn ht
    exact ⟨s', hs'⟩
  · intro us s t s' hpow hr
    obtain ⟨t', ht', h⟩ := hpow.alike.runTurns hr
    exact ⟨t', ht', h.results.symm, h.txline.symm, h.pc.symm, h.phase.symm, h.faultCode.symm,
      fun hp => ⟨(h.registers hp).symm, fun d => (h.unread hp d).symm⟩⟩

end Sys2Proof.Machine
end

section
/-! The invariant along steps and schedules, and what it says of every reachable state (spec/10_state.md R35, R36, R37;
spec/20_memory.md R49), from power-on reset and `INIT` on (spec/10_state.md R40, R41). -/

namespace Sys2Proof.Machine

/-- The schedule is no part of what the invariant speaks about. -/
theorem BlockInv.schedule {s : State} (h : BlockInv s) (l : List Turn) (n : Nat) :
    BlockInv { s with agenda := l, draws := n } :=
  h.congr ⟨rfl, rfl, rfl, rfl⟩ ⟨rfl, rfl, rfl, rfl⟩ rfl rfl rfl

/-- Settles O42: a step is a turn, taken after a change of the schedule alone, and both keep the invariant. -/
theorem everyStepKeepsInvariant : Obligations.EveryStepKeepsInvariant := by
  intro s t h hstep
  obtain ⟨u, s', hnext, hturn⟩ := step_next.1 hstep
  obtain ⟨l, n, rfl⟩ := State.nextTurn_state hnext
  exact (h.schedule l n).takeTurn hturn

/-- Every schedule keeps the invariant. -/
theorem BlockInv.runTurns {us : List Turn} {s t : State} (h : BlockInv s) (hr : runTurns us s = some t) :
    BlockInv t := by
  induction us generalizing s with
  | nil => exact Option.some.inj hr ▸ h
  | cons u us ih =>
    obtain ⟨v, hv, hrest⟩ := runTurns_cons.1 hr
    exact ih (h.takeTurn hv) hrest

/-- Every reachable state meets the invariant. -/
theorem Reachable.blockInv {s : State} (h : Reachable s) : BlockInv s := by
  obtain ⟨s₀, us, hpow, hr⟩ := h
  exact hpow.blockInv.runTurns hr

/-- Settles O43: the bound is the invariant's; a slot is below the capacity in any state. -/
theorem txOccupancyIsBounded : Obligations.TxOccupancyIsBounded := by
  intro s h
  have hinv := h.blockInv
  exact ⟨fun hp => (hinv.ready hp).txBound, s.inSlot_lt .tx, s.outSlot_lt .tx, hinv.txBelow⟩

theorem State.txState_eq_idle_iff {s : State} : s.txState = .idle ↔ s.txie = false := by
  cases h : s.txie <;> simp [State.txState, h]

/-- In `READY` the TX controller is armed exactly when the TX FIFO is not empty. -/
theorem ReadyInv.txie_iff {s : State} (h : ReadyInv s) : s.txie = true ↔ s.isEmpty .tx = false := by
  have hemp := State.isEmpty_iff h.tx.inRange h.tx.outRange
  rw [h.armed, Nat.pos_iff_ne_zero, ne_eq, ← hemp, Bool.not_eq_true]

/-- Settles O44: the invariant's clause on `txie`, with emptiness for occupancy 0. -/
theorem armedExactlyWhenNonEmpty : Obligations.ArmedExactlyWhenNonEmpty := by
  intro s h hp
  have hready := h.blockInv.ready hp
  refine ⟨hready.armed, fun hidle => ?_, hready.txie_iff.2⟩
  have hoff := State.txState_eq_idle_iff.1 hidle
  by_contra hne
  have hon := hready.txie_iff.2 (Bool.eq_false_iff.2 hne)
  simp [hoff] at hon

/-! ### Power-on reset and `INIT` -/

/-- The model's reset is one of the power-on states. -/
theorem State.reset_powerOn : PowerOn State.reset := ⟨rfl, rfl, rfl, rfl, rfl, rfl, rfl, rfl, rfl⟩

/-- Outside `READY` no interrupt is requested (spec/41_device_port.md R93). -/
theorem State.irq_of_not_ready {s : State} (h : s.phase ≠ .ready) (ready : Bool) :
    s.irqRx ready = false ∧ s.irqTx ready = false := by
  simp [State.irqRx, State.irqTx, h]

/-- Settles O41: reset is a power-on state, and every power-on state is outside `READY` and meets the invariant. -/
theorem powerOnSatisfiesInvariant : Obligations.PowerOnSatisfiesInvariant := by
  refine ⟨State.reset_powerOn, State.reset_powerOn.blockInv, fun s => PowerOn.blockInv, fun s ready hpow => ?_⟩
  have hp : s.phase ≠ .ready := by simp [hpow.phase]
  exact State.irq_of_not_ready hp ready

theorem State.initialised_isEmpty (s : State) (d : Fifo) : s.initialised.isEmpty d = true := by
  cases d <;> simp [State.isEmpty]

theorem State.initialised_cell (s : State) (d : Fifo) (a : Nat) : s.initialised.cell d a = s.cell d a := by
  cases d <;> rfl

theorem State.advancePc_sameFifo (s : State) (d : Fifo) : SameFifo s s.advancePc d := by
  cases d <;> exact ⟨rfl, rfl, rfl, rfl⟩

/-- Settles O14: `INIT` in `UNINIT` answers `State.initialised`, at the next position of the program. -/
theorem initGivesOperatingState : Obligations.InitGivesOperatingState := by
  intro s hp
  have hsame : ∀ d, SameFifo s.initialised s.initialised.advancePc d := s.initialised.advancePc_sameFifo
  refine ⟨s.initialised.advancePc, execInit_next.2 (.inl ⟨hp, rfl⟩), rfl, fun d => ⟨?_, ?_⟩, rfl, fun d a => ?_⟩
  · exact (hsame d).isEmpty.trans (s.initialised_isEmpty d)
  · exact (hsame d).occ.trans (s.initialised_occ d)
  · exact ((hsame d).cell a).trans (s.initialised_cell d a)

end Sys2Proof.Machine
end

section
/-! What each operation changes and what it leaves alone: one equation per effect, then the "written by" columns of
spec/10_state.md R18, R29, R30, R31, single-writer ownership (R34) and the position of `HOST` (R32). -/

namespace Sys2Proof.Machine

/-! ### What each effect changes -/

theorem writeByteEffect_of_full {b : Byte} {s : State} (h : s.isFull .tx = true) : writeByteEffect b s = s := by
  simp [writeByteEffect, h]

theorem writeByteEffect_of_not_full {b : Byte} {s : State} (h : s.isFull .tx = false) :
    writeByteEffect b s = (s.enqueue .tx b).setTxie true := by
  simp [writeByteEffect, h, State.rearm_eq]

/-- `WRITE_BYTE` changes the TX buffer, `tx_in` and `txie` alone, and `txie` to 1 only. -/
theorem writeByteEffect_eq (b : Byte) (s : State) : ∃ m n x, (x = s.txie ∨ x = true) ∧
    writeByteEffect b s = { s with txBuf := m, txIn := n, txie := x } := by
  cases h : s.isFull .tx with
  | true => exact ⟨s.txBuf, s.txIn, s.txie, .inl rfl, writeByteEffect_of_full h⟩
  | false => exact ⟨_, _, true, .inr rfl, writeByteEffect_of_not_full h⟩

theorem State.setTxie_sameFifo (s : State) (x : Bool) (d : Fifo) : SameFifo s (s.setTxie x) d := by
  cases d <;> exact ⟨rfl, rfl, rfl, rfl⟩

/-- `WRITE_BYTE` stores one cell, and none when the TX FIFO is full. -/
theorem writeByteEffect_cell (b : Byte) (s : State) (d : Fifo) (a : Nat) : (writeByteEffect b s).cell d a =
    if s.isFull .tx = false ∧ d = .tx ∧ a = s.inSlot .tx then b else s.cell d a := by
  cases h : s.isFull .tx with
  | true => simp [writeByteEffect_of_full h]
  | false =>
    rw [writeByteEffect_of_not_full h, (State.setTxie_sameFifo _ true d).cell, State.enqueue_cell]
    simp

/-- `READ_BYTE` changes `rx_out`, `results` and `draws` alone, and `rx_out` on a non-empty RX FIFO only. -/
theorem readByteEffect_eq (s : State) : ∃ v n k, (s.isEmpty .rx = true → n = s.rxOut) ∧
    readByteEffect s = { s with rxOut := n, results := s.results ++ [.byte v], draws := k } := by
  cases h : s.isEmpty .rx with
  | true =>
    obtain ⟨v, k, he⟩ := s.readOnEmpty_eq
    exact ⟨v, s.rxOut, k, fun _ => rfl, by simp [readByteEffect, h, he]⟩
  | false =>
    refine ⟨s.oldest .rx, addMod (s.params.w .rx) s.rxOut 1, s.draws, by simp, ?_⟩
    simp [readByteEffect, h, State.advanceOut, State.deliverResult]

theorem rxByteEffect_of_drop {r : Byte} {s : State} (h : s.dropsNewest = true) : rxByteEffect r s = s := by
  simp [rxByteEffect, h]

theorem rxByteEffect_of_store {r : Byte} {s : State} (h : s.dropsNewest = false) :
    rxByteEffect r s = s.enqueue .rx r := by
  simp [rxByteEffect, h]

/-- `RX_BYTE` changes the RX buffer and `rx_in` alone. -/
theorem rxByteEffect_eq (r : Byte) (s : State) : ∃ m n, rxByteEffect r s = { s with rxBuf := m, rxIn := n } := by
  cases h : s.dropsNewest with
  | true => exact ⟨s.rxBuf, s.rxIn, rxByteEffect_of_drop h⟩
  | false => exact ⟨_, _, rxByteEffect_of_store h⟩

/-- `RX_BYTE` stores one cell, and none when the byte is dropped. -/
theorem rxByteEffect_cell (r : Byte) (s : State) (d : Fifo) (a : Nat) : (rxByteEffect r s).cell d a =
    if s.dropsNewest = false ∧ d = .rx ∧ a = s.inSlot .rx then r else s.cell d a := by
  cases h : s.dropsNewest with
  | true => simp [rxByteEffect_of_drop h]
  | false => simp [rxByteEffect_of_store h, State.enqueue_cell]

/-- The first half of `TX_SERVICE` changes `tx_out` and the line alone. -/
theorem State.drainOne_eq (s : State) : ∃ n l, s.drainOne = { s with txOut := n, txline := l } := by
  unfold State.drainOne
  split_ifs
  · exact ⟨s.txOut, s.txline, rfl⟩
  · exact ⟨_, _, rfl⟩

/-- The second half of `TX_SERVICE` changes `txie` alone, and to 0 only. -/
theorem State.disarmIfEmpty_eq (s : State) : ∃ x, (x = s.txie ∨ x = false) ∧ s.disarmIfEmpty = { s with txie := x } := by
  unfold State.disarmIfEmpty
  split_ifs
  · exact ⟨false, .inr rfl, rfl⟩
  · exact ⟨s.txie, .inl rfl, rfl⟩

/-- `TX_SERVICE` changes `tx_out`, the line and `txie` alone, and `txie` to 0 only. -/
theorem txServiceEffect_eq (s : State) : ∃ n l x, (x = s.txie ∨ x = false) ∧
    txServiceEffect s = { s with txOut := n, txline := l, txie := x } := by
  obtain ⟨n, l, hdrain⟩ := s.drainOne_eq
  obtain ⟨x, hx, hdisarm⟩ := s.drainOne.disarmIfEmpty_eq
  rw [hdrain] at hx hdisarm
  exact ⟨n, l, x, hx, by rw [txServiceEffect, hdrain, hdisarm]⟩

/-! ### What an operation can answer -/

/-- What an operation does in `READY`, `pc` and the fault of a second `INIT` included (spec/40_host_port.md R77;
spec/60_exceptions.md R112). -/
def Instr.readyEffect : Instr → State → State
  | .init, s => s.raiseFault .reinit
  | .writeByte b, s => (writeByteEffect b s).advancePc
  | .readByte, s => (readByteEffect s).advancePc
  | .available, s => (availableEffect s).advancePc
  | .rxByte r, s => rxByteEffect r s
  | .txService, s => txServiceEffect s

/-- In `READY` every operation answers its effect, `TX_SERVICE` only when armed. -/
theorem exec_next_of_ready {i : Instr} {s t : State} (hp : s.phase = .ready) : exec i s = .next t ↔
    (i = .txService → s.txie = true) ∧ t = Instr.readyEffect i s := by
  cases i with
  | init => simp [exec_init_eq, execInit_next, hp, Instr.readyEffect]
  | writeByte b => simp [exec_writeByte_eq, hostOperation_next, hp, Instr.readyEffect]
  | readByte => simp [exec_readByte_eq, hostOperation_next, hp, Instr.readyEffect]
  | available => simp [exec_available_eq, hostOperation_next, hp, Instr.readyEffect]
  | rxByte r => simp [exec_rxByte_eq, deviceEvent_next, hp, Instr.readyEffect]
  | txService => simp [exec_txService_eq, deviceEvent_next, hp, Instr.readyEffect]

/-- All an operation can do: its effect in `READY`, a successful `INIT`, or the fault `F_UNINIT`. -/
theorem exec_next_cases {i : Instr} {s t : State} (h : exec i s = .next t) :
    (s.phase = .ready ∧ t = Instr.readyEffect i s) ∨
      (s.phase = .uninit ∧ i = .init ∧ t = s.initialised.advancePc) ∨
      (s.phase = .uninit ∧ i.issuer = .host ∧ t = s.raiseFault .uninit) := by
  cases hp : s.phase with
  | uninit =>
    rcases (exec_next_of_uninit hp).1 h with ⟨hi, ht⟩ | ⟨_, hi, ht⟩
    · exact .inr (.inl ⟨rfl, hi, ht⟩)
    · exact .inr (.inr ⟨rfl, hi, ht⟩)
  | ready => exact .inl ⟨rfl, ((exec_next_of_ready hp).1 h).2⟩
  | faulted => exact absurd hp (phase_ne_faulted_of_exec h)

/-! ### The frame of each operation -/

/-- Settles O17: `writeByteEffect_cell` for the cells, `writeByteEffect_eq` for the registers. -/
theorem writeByteFrame : Obligations.WriteByteFrame := by
  intro b s t hp he
  obtain ⟨_, rfl⟩ := (exec_next_of_ready hp).1 he
  have hcell : ∀ d a, (Instr.readyEffect (.writeByte b) s).cell d a = (writeByteEffect b s).cell d a := fun d =>
    ((writeByteEffect b s).advancePc_sameFifo d).cell
  refine ⟨fun a => by simp [hcell, writeByteEffect_cell], fun a => by simp [hcell, writeByteEffect_cell], ?_⟩
  have hfull : s.isFull .tx = true → (Instr.readyEffect (.writeByte b) s).txIn = s.txIn ∧
      (Instr.readyEffect (.writeByte b) s).txie = s.txie := fun h => by
    simp [Instr.readyEffect, writeByteEffect_of_full h]
  obtain ⟨m, n, x, _, heq⟩ := writeByteEffect_eq b s
  simp only [Instr.readyEffect, heq] at hfull ⊢
  exact ⟨rfl, rfl, rfl, rfl, rfl, hfull, rfl, rfl, rfl, rfl, rfl, rfl⟩

/-- Settles O22: `readByteEffect_eq` names all that changes. -/
theorem readByteFrame : Obligations.ReadByteFrame := by
  intro s t hp he
  obtain ⟨_, rfl⟩ := (exec_next_of_ready hp).1 he
  obtain ⟨v, n, k, hempty, heq⟩ := readByteEffect_eq s
  simp only [Instr.readyEffect, heq]
  refine ⟨fun d a => ?_, rfl, rfl, rfl, rfl, rfl, rfl, rfl, rfl, rfl, rfl, fun h => hempty (decide_eq_true h), v, rfl⟩
  cases d <;> rfl

/-- Settles O27: `rxByteEffect_cell` for the cells, `rxByteEffect_eq` for the registers. -/
theorem rxByteFrame : Obligations.RxByteFrame := by
  intro r s t he
  obtain ⟨_, rfl⟩ : s.phase = .ready ∧ t = rxByteEffect r s := execRxByte_next.1 he
  refine ⟨fun a => by simp [rxByteEffect_cell], fun a => by simp [rxByteEffect_cell], ?_⟩
  have hdrop : s.dropsNewest = true → rxByteEffect r s = s := rxByteEffect_of_drop
  obtain ⟨m, n, heq⟩ := rxByteEffect_eq r s
  rw [heq] at hdrop ⊢
  exact ⟨rfl, rfl, rfl, rfl, rfl, rfl, rfl, rfl, rfl, rfl, rfl, rfl, rfl, hdrop⟩

/-- Settles O34: `txServiceEffect_eq` names all that changes. -/
theorem txServiceFrame : Obligations.TxServiceFrame := by
  intro s t he
  obtain ⟨_, _, rfl⟩ : s.phase = .ready ∧ s.txie = true ∧ t = txServiceEffect s := execTxService_next.1 he
  obtain ⟨n, l, x, _, heq⟩ := txServiceEffect_eq s
  rw [heq]
  refine ⟨fun d a => ?_, rfl, rfl, rfl, rfl, rfl, rfl, rfl, rfl, rfl, rfl, rfl⟩
  cases d <;> rfl

/-! ### Who writes what -/

/-- The "written by" columns of R18, R29, R30 and R31 after `INIT`, for an operation `i` that leads from `s` to `t`. -/
structure WrittenByOwner (i : Instr) (s t : State) : Prop where
  rxIn : t.rxIn ≠ s.rxIn → ∃ r, i = .rxByte r
  rxOut : t.rxOut ≠ s.rxOut → i = .readByte
  txIn : t.txIn ≠ s.txIn → ∃ b, i = .writeByte b
  txOut : t.txOut ≠ s.txOut → i = .txService
  txie : t.txie ≠ s.txie → (∃ b, i = .writeByte b ∧ t.txie = true) ∨ (i = .txService ∧ t.txie = false)
  rxBuf : t.rxBuf ≠ s.rxBuf → ∃ r, i = .rxByte r
  txBuf : t.txBuf ≠ s.txBuf → ∃ b, i = .writeByte b
  txline : t.txline ≠ s.txline → i = .txService
  results : t.results ≠ s.results → i = .readByte ∨ i = .available
  phase : t.phase ≠ s.phase → t.phase = .faulted
  faultCode : t.faultCode ≠ s.faultCode → t.phase = .faulted

/-- A fault writes `phase` and the fault code alone. -/
theorem WrittenByOwner.raiseFault (i : Instr) (s : State) (c : FaultCode) : WrittenByOwner i s (s.raiseFault c) := by
  constructor <;> simp

/-- In `READY` every register, buffer and trace has its own writing operation. -/
theorem Instr.readyEffect_writtenByOwner (i : Instr) (s : State) : WrittenByOwner i s (Instr.readyEffect i s) := by
  cases i with
  | init => exact .raiseFault _ s .reinit
  | writeByte b =>
    obtain ⟨m, n, x, hx, heq⟩ := writeByteEffect_eq b s
    rw [Instr.readyEffect, heq]
    constructor
    case txie => exact fun hne => .inl ⟨b, rfl, hx.resolve_left hne⟩
    all_goals simp
  | readByte =>
    obtain ⟨v, n, k, _, heq⟩ := readByteEffect_eq s
    rw [Instr.readyEffect, heq]
    constructor <;> simp
  | available => constructor <;> simp [Instr.readyEffect, availableEffect]
  | rxByte r =>
    obtain ⟨m, n, heq⟩ := rxByteEffect_eq r s
    rw [Instr.readyEffect, heq]
    constructor <;> simp
  | txService =>
    obtain ⟨n, l, x, hx, heq⟩ := txServiceEffect_eq s
    rw [Instr.readyEffect, heq]
    constructor
    case txie => exact fun hne => .inr ⟨rfl, hx.resolve_left hne⟩
    all_goals simp

/-- An operation that is no successful `INIT` writes what it owns, or faults. -/
theorem exec_writtenByOwner {i : Instr} {s t : State} (h : exec i s = .next t) :
    WrittenByOwner i s t ∨ (s.phase = .uninit ∧ i = .init ∧ t = s.initialised.advancePc) := by
  rcases exec_next_cases h with ⟨_, rfl⟩ | hinit | ⟨_, _, rfl⟩
  · exact .inl (Instr.readyEffect_writtenByOwner i s)
  · exact .inr hinit
  · exact .inl (.raiseFault i s .uninit)

/-- Settles O36: `WrittenByOwner` with `INIT`'s own writes added. -/
theorem eachCellHasItsWriters : Obligations.EachCellHasItsWriters := by
  intro i s t he
  rcases exec_writtenByOwner he with h | ⟨_, rfl, rfl⟩
  · exact ⟨fun hne => .inr (h.rxIn hne), fun hne => .inr (h.rxOut hne), fun hne => .inr (h.txIn hne),
      fun hne => .inr (h.txOut hne), fun hne => .inr (h.txie hne), h.rxBuf, h.txBuf, h.txline, h.results,
      fun hne => .inr (h.phase hne), h.faultCode⟩
  · simp

/-- In `READY` no operation is a successful `INIT`, so each writes what it owns. -/
theorem exec_writtenByOwner_of_ready {i : Instr} {s t : State} (h : exec i s = .next t) (hp : s.phase = .ready) :
    WrittenByOwner i s t :=
  (exec_writtenByOwner h).resolve_right fun ⟨hu, _⟩ => by simp [hp] at hu

/-- `INIT` alone leads from `UNINIT` to `READY`. -/
theorem exec_uninit_to_ready {i : Instr} {s t : State} (h : exec i s = .next t) (hu : s.phase = .uninit)
    (hr : t.phase = .ready) : i = .init ∧ t = s.initialised.advancePc := by
  rcases (exec_next_of_uninit hu).1 h with hinit | ⟨_, _, rfl⟩
  · exact hinit
  · simp at hr

/-- Settles O37: `WrittenByOwner` in `READY`, operation by operation; a turn's agent is its operation's issuer. -/
theorem oneWriterForEachPointer : Obligations.OneWriterForEachPointer := by
  refine ⟨fun i s t he => ⟨fun hp => ?_, fun hu hr => ?_⟩, fun u s t hturn hp => ?_⟩
  · have h := exec_writtenByOwner_of_ready he hp
    exact ⟨h.rxIn, h.rxOut, h.txIn, h.txOut⟩
  · obtain ⟨rfl, rfl⟩ := exec_uninit_to_ready he hu hr
    simp [State.enabled, hu]
  · rcases takeTurn_cases hturn with ⟨c, _, _, _, rfl⟩ | ⟨i, _, hagent, he⟩
    · simp
    · have h := exec_writtenByOwner_of_ready he hp
      rw [hagent]
      refine ⟨fun hne => ?_, fun hne => ?_, fun hne => ?_, fun hne => ?_⟩
      · obtain ⟨r, rfl⟩ := h.rxIn hne; rfl
      · obtain rfl := h.rxOut hne; rfl
      · obtain ⟨b, rfl⟩ := h.txIn hne; rfl
      · obtain rfl := h.txOut hne; rfl

/-! ### The position of `HOST` -/

/-- What R32 says of `pc` when agent `a` leads from `s` to `t`. -/
def PcStep (a : Agent) (s t : State) : Prop :=
  t.pc = if a = .host ∧ t.phase ≠ .faulted then s.pc + 1 else s.pc

theorem PcStep.raiseFault (a : Agent) (s : State) (c : FaultCode) : PcStep a s (s.raiseFault c) := by
  simp [PcStep]

theorem Instr.readyEffect_pcStep {s : State} (hp : s.phase = .ready) (i : Instr) :
    PcStep i.issuer s (Instr.readyEffect i s) := by
  cases i with
  | init => exact .raiseFault _ s .reinit
  | writeByte b =>
    obtain ⟨m, n, x, _, heq⟩ := writeByteEffect_eq b s
    simp [PcStep, Instr.readyEffect, Instr.issuer, heq, hp]
  | readByte =>
    obtain ⟨v, n, k, _, heq⟩ := readByteEffect_eq s
    simp [PcStep, Instr.readyEffect, Instr.issuer, heq, hp]
  | available => simp [PcStep, Instr.readyEffect, Instr.issuer, availableEffect, hp]
  | rxByte r =>
    obtain ⟨m, n, heq⟩ := rxByteEffect_eq r s
    simp [PcStep, Instr.readyEffect, Instr.issuer, heq]
  | txService =>
    obtain ⟨n, l, x, _, heq⟩ := txServiceEffect_eq s
    simp [PcStep, Instr.readyEffect, Instr.issuer, heq]

theorem exec_pcStep {i : Instr} {s t : State} (h : exec i s = .next t) : PcStep i.issuer s t := by
  rcases exec_next_cases h with ⟨hp, rfl⟩ | ⟨_, rfl, rfl⟩ | ⟨_, _, rfl⟩
  · exact Instr.readyEffect_pcStep hp i
  · simp [PcStep, Instr.issuer]
  · exact .raiseFault _ s .uninit

/-- Settles O39: a fault leaves `pc`, and an operation that runs advances it if its issuer is `HOST`. -/
theorem programCounterAdvancesByOne : Obligations.ProgramCounterAdvancesByOne := by
  intro u s t hturn
  rcases takeTurn_cases hturn with ⟨c, _, _, _, rfl⟩ | ⟨i, _, hagent, he⟩
  · exact PcStep.raiseFault u.agent s c
  · rw [hagent]
    exact exec_pcStep he

end Sys2Proof.Machine
end

section
/-! Arrivals that nothing reads, under `OVERWRITE` (spec/10_state.md R27, R35; spec/41_device_port.md R97). -/

namespace Sys2Proof.Machine

/-- The state after the bytes `rs` have been stored in the RX FIFO one by one. -/
def State.storeArrivals (s : State) (rs : List Byte) : State := rs.foldl (State.enqueue · .rx) s

@[simp] theorem State.storeArrivals_nil (s : State) : s.storeArrivals [] = s := rfl

@[simp] theorem State.storeArrivals_cons (s : State) (r : Byte) (rs : List Byte) :
    s.storeArrivals (r :: rs) = (s.enqueue .rx r).storeArrivals rs := rfl

@[simp] theorem State.storeArrivals_params (s : State) (rs : List Byte) : (s.storeArrivals rs).params = s.params := by
  induction rs generalizing s with
  | nil => rfl
  | cons r rs ih => rw [State.storeArrivals_cons, ih, State.enqueue_params]

theorem State.enqueue_phase (s : State) (d : Fifo) (v : Byte) : (s.enqueue d v).phase = s.phase := by
  cases d <;> rfl

@[simp] theorem State.storeArrivals_phase (s : State) (rs : List Byte) : (s.storeArrivals rs).phase = s.phase := by
  induction rs generalizing s with
  | nil => rfl
  | cons r rs ih => rw [State.storeArrivals_cons, ih, State.enqueue_phase]

@[simp] theorem State.storeArrivals_rxOut (s : State) (rs : List Byte) : (s.storeArrivals rs).rxOut = s.rxOut := by
  induction rs generalizing s with
  | nil => rfl
  | cons r rs ih => rw [State.storeArrivals_cons, ih]; exact State.enqueue_outPtr s .rx .rx r

/-- Each arrival adds one to the occupancy, modulo `2^W_RX`. -/
theorem State.storeArrivals_occ (s : State) (rs : List Byte) :
    (s.storeArrivals rs).occ .rx = (s.occ .rx + rs.length) % 2 ^ s.params.w .rx := by
  induction rs generalizing s with
  | nil => exact (Nat.mod_eq_of_lt (s.occ_lt .rx)).symm
  | cons r rs ih =>
    rw [State.storeArrivals_cons, ih, State.enqueue_params, State.enqueue_occ, Nat.mod_add_mod, List.length_cons,
      Nat.add_assoc, Nat.add_comm 1]

/-- Under `OVERWRITE` an arrival in `READY` is stored, at any occupancy. -/
theorem exec_rxByte_of_overwrite {s : State} (hp : s.phase = .ready) (ho : s.params.rxOvf = .overwrite) (r : Byte) :
    exec (.rxByte r) s = .next (s.enqueue .rx r) := by
  have hd : s.dropsNewest = false := by simp [State.dropsNewest, ho]
  exact execRxByte_next.2 ⟨hp, by simp [hd]⟩

/-- Under `OVERWRITE` every arrival of a list is stored. -/
theorem runInstrs_rxByte {s : State} (hp : s.phase = .ready) (ho : s.params.rxOvf = .overwrite) (rs : List Byte) :
    runInstrs (rs.map .rxByte) s = some (s.storeArrivals rs) := by
  induction rs generalizing s with
  | nil => rfl
  | cons r rs ih =>
    rw [List.map_cons, runInstrs, exec_rxByte_of_overwrite hp ho, State.storeArrivals_cons]
    exact ih ((s.enqueue_phase .rx r).trans hp) (by rw [State.enqueue_params]; exact ho)

/-- Settles O29: every arrival is stored, and each adds one to the occupancy modulo `2^W_RX`. -/
theorem unreadArrivalsWrap : Obligations.UnreadArrivalsWrap := fun rs s hp ho =>
  ⟨s.storeArrivals rs, runInstrs_rxByte hp ho rs, s.storeArrivals_occ rs, s.storeArrivals_rxOut rs⟩

/-! ### Every occupancy is reached -/

/-- `RXI`'s turns for a list of arrivals do what the operations do. -/
theorem runTurns_rxByte {s : State} (hp : s.phase = .ready) (ho : s.params.rxOvf = .overwrite) (rs : List Byte) :
    runTurns (rs.map fun r => .rxi (encode (.rxByte r))) s = some (s.storeArrivals rs) := by
  induction rs generalizing s with
  | nil => rfl
  | cons r rs ih =>
    have hturn : takeTurn (.rxi (encode (.rxByte r))) s = .next (s.enqueue .rx r) :=
      (takeTurn_of_decode rfl (decode_encode _) rfl (by simp [hp])).trans (exec_rxByte_of_overwrite hp ho r)
    refine runTurns_cons.2 ⟨_, hturn, ?_⟩
    exact ih ((s.enqueue_phase .rx r).trans hp) (by rw [State.enqueue_params]; exact ho)

/-- A power-on state with the parameters `p`, whose host program is one `INIT`. -/
def initProgram (p : Config.Params) : State := { State.reset with params := p, program := [encode .init] }

theorem initProgram_powerOn (p : Config.Params) : PowerOn (initProgram p) :=
  ⟨rfl, rfl, rfl, rfl, rfl, rfl, rfl, rfl, rfl⟩

/-- The host's first turn of `initProgram` runs `INIT`. -/
theorem takeTurn_initProgram (p : Config.Params) :
    takeTurn .host (initProgram p) = .next (initProgram p).initialised.advancePc :=
  (takeTurn_of_decode rfl (decode_encode .init) rfl (by simp [initProgram, State.reset])).trans rfl

/-- After `INIT`, any list of unread arrivals under `OVERWRITE` leads to a reachable state. -/
theorem reachable_storeArrivals {p : Config.Params} (ho : p.rxOvf = .overwrite) (rs : List Byte) :
    Reachable ((initProgram p).initialised.advancePc.storeArrivals rs) :=
  ⟨initProgram p, .host :: rs.map fun r => .rxi (encode (.rxByte r)), initProgram_powerOn p,
    runTurns_cons.2 ⟨_, takeTurn_initProgram p, runTurns_rxByte rfl ho rs⟩⟩

/-- Settles O45: the invariant's bound under `DROP_NEWEST`; under `OVERWRITE`, `INIT` and `n` unread arrivals. -/
theorem rxOccupancyBounds : Obligations.RxOccupancyBounds := by
  refine ⟨fun s h hp => (h.blockInv.ready hp).rxBound, fun p n ho hn => ?_⟩
  have hocc : (initProgram p).initialised.advancePc.occ .rx = 0 := (initProgram p).initialised_occ .rx
  refine ⟨_, reachable_storeArrivals ho (List.replicate n 0), State.storeArrivals_params _ _,
    State.storeArrivals_phase _ _, ?_⟩
  rw [State.storeArrivals_occ, hocc, List.length_replicate, Nat.zero_add]
  exact Nat.mod_eq_of_lt hn

end Sys2Proof.Machine
end

section
/-! Noninterference of the TX side with `HOST` (spec/10_state.md R39; spec/40_host_port.md R81, R91): two states that
differ in it alone. -/

namespace Sys2Proof.Machine

/-- `s` with its TX side wiped out: what is left is all that `HOST` could ever be shown. -/
def State.withoutTx (s : State) : State :=
  { s with txIn := 0, txOut := 0, txie := false, txBuf := [], txline := [] }

/-- `s` and `t` differ in the TX side alone: `tx_in`, `tx_out`, `txie`, the TX buffer and the line. -/
def SameButTx (s t : State) : Prop := s.withoutTx = t.withoutTx

theorem SameButTx.symm {s t : State} (h : SameButTx s t) : SameButTx t s := Eq.symm h

/-- What the TX side has no part in, two such states agree on. -/
theorem SameButTx.agree {α : Type} {s t : State} (h : SameButTx s t) (f : State → α)
    (hf : ∀ u, f u.withoutTx = f u := by intro u; rfl) : f s = f t :=
  calc f s
    _ = f s.withoutTx := (hf s).symm
    _ = f t.withoutTx := congrArg f h
    _ = f t := hf t

theorem SameButTx.phase {s t : State} (h : SameButTx s t) : s.phase = t.phase := h.agree State.phase

/-- An effect whose result, less the TX side, comes from the state less the TX side keeps `SameButTx`. -/
theorem SameButTx.map {f : State → State} (hf : ∀ s, (f s).withoutTx = (f s.withoutTx).withoutTx) {s t : State}
    (h : SameButTx s t) : SameButTx (f s) (f t) :=
  calc (f s).withoutTx
    _ = (f s.withoutTx).withoutTx := hf s
    _ = (f t.withoutTx).withoutTx := congrArg (fun u => (f u).withoutTx) h
    _ = (f t).withoutTx := (hf t).symm

theorem SameButTx.raiseFault {s t : State} (h : SameButTx s t) (c : FaultCode) :
    SameButTx (s.raiseFault c) (t.raiseFault c) :=
  h.map (f := (State.raiseFault · c)) fun _ => rfl

theorem SameButTx.advancePc {s t : State} (h : SameButTx s t) : SameButTx s.advancePc t.advancePc :=
  h.map fun _ => rfl

theorem SameButTx.initialised {s t : State} (h : SameButTx s t) : SameButTx s.initialised t.initialised :=
  h.map fun _ => rfl

theorem SameButTx.availableEffect {s t : State} (h : SameButTx s t) :
    SameButTx (availableEffect s) (availableEffect t) :=
  h.map fun _ => rfl

/-- `WRITE_BYTE` is seen on the TX side alone, dropped or not (R81). -/
theorem writeByteEffect_withoutTx (b : Byte) (s : State) : (writeByteEffect b s).withoutTx = s.withoutTx := by
  obtain ⟨m, n, x, _, heq⟩ := writeByteEffect_eq b s
  rw [heq]
  rfl

theorem SameButTx.writeByteEffect {s t : State} (h : SameButTx s t) (b : Byte) :
    SameButTx (writeByteEffect b s) (writeByteEffect b t) := by
  unfold SameButTx
  rw [writeByteEffect_withoutTx, writeByteEffect_withoutTx]
  exact h

/-- The underflow policy is all that a read on empty looks at, but for `draws`. -/
theorem State.readOnEmpty_withoutTx (s : State) : s.readOnEmpty.withoutTx = s.withoutTx.readOnEmpty.withoutTx := by
  have hudf : s.withoutTx.params = s.params := rfl
  unfold State.readOnEmpty
  rw [hudf]
  cases s.params.rxUdf <;> rfl

theorem SameButTx.readByteEffect {s t : State} (h : SameButTx s t) :
    SameButTx (readByteEffect s) (readByteEffect t) := by
  refine h.map fun u => ?_
  have hempty : u.withoutTx.isEmpty .rx = u.isEmpty .rx := rfl
  unfold Machine.readByteEffect
  rw [hempty]
  split_ifs
  · exact u.readOnEmpty_withoutTx
  · rfl

theorem SameButTx.rxByteEffect {s t : State} (h : SameButTx s t) (r : Byte) :
    SameButTx (rxByteEffect r s) (rxByteEffect r t) := by
  refine h.map (f := Machine.rxByteEffect r) fun u => ?_
  have hdrop : u.withoutTx.dropsNewest = u.dropsNewest := rfl
  unfold Machine.rxByteEffect
  rw [hdrop]
  split_ifs <;> rfl

/-- In `READY` every operation but `TX_SERVICE` keeps two states equal but for the TX side. -/
theorem SameButTx.readyEffect {s t : State} (h : SameButTx s t) {i : Instr} (hi : i.issuer ≠ .txi) :
    SameButTx (Instr.readyEffect i s) (Instr.readyEffect i t) := by
  cases i with
  | init => exact h.raiseFault .reinit
  | writeByte b => exact (h.writeByteEffect b).advancePc
  | readByte => exact h.readByteEffect.advancePc
  | available => exact h.availableEffect.advancePc
  | rxByte r => exact h.rxByteEffect r
  | txService => exact absurd rfl hi

/-- What `s` answers to an operation other than `TX_SERVICE`, `t` answers too, the same but for the TX side. -/
theorem SameButTx.exec {i : Instr} {s t s' : State} (h : SameButTx s t) (hi : i.issuer ≠ .txi)
    (he : exec i s = .next s') : ∃ t', exec i t = .next t' ∧ SameButTx s' t' := by
  cases hp : s.phase with
  | uninit =>
    have hpt : t.phase = .uninit := h.phase ▸ hp
    rcases (exec_next_of_uninit hp).1 he with ⟨hinit, rfl⟩ | ⟨hne, hhost, rfl⟩
    · exact ⟨_, (exec_next_of_uninit hpt).2 (.inl ⟨hinit, rfl⟩), h.initialised.advancePc⟩
    · exact ⟨_, (exec_next_of_uninit hpt).2 (.inr ⟨hne, hhost, rfl⟩), h.raiseFault .uninit⟩
  | ready =>
    have hpt : t.phase = .ready := h.phase ▸ hp
    obtain ⟨_, rfl⟩ := (exec_next_of_ready hp).1 he
    have harmed : i = .txService → t.txie = true := fun htx => absurd (htx ▸ rfl) hi
    exact ⟨_, (exec_next_of_ready hpt).2 ⟨harmed, rfl⟩, h.readyEffect hi⟩
  | faulted => exact absurd hp (phase_ne_faulted_of_exec he)

/-- Settles O40: the two runs are the same but for the TX side before the operation, and so after it. -/
theorem hostCannotObserveTransmitSide : Obligations.HostCannotObserveTransmitSide := by
  intro i s s' txIn txOut txie txBuf txline hi he
  have h : SameButTx s
      { s with txIn := txIn, txOut := txOut, txie := txie, txBuf := txBuf, txline := txline } := rfl
  obtain ⟨t, ht, hsame⟩ := h.exec hi he
  have h' : SameButTx t s' := hsame.symm
  exact ⟨t, ht, h'.agree State.results, h'.agree State.pc, h'.phase, h'.agree State.faultCode, h'.agree State.rxIn,
    h'.agree State.rxOut, h'.agree State.rxBuf, h'.agree State.draws⟩

end Sys2Proof.Machine
end

section
/-! What each operation in `READY` does to the unread bytes of the two FIFOs (spec/20_memory.md R49, R51; the effects of
spec/40_host_port.md R79, R82, R86 and spec/41_device_port.md R95, R99). -/

namespace Sys2Proof.Machine

/-! ### Occupancy, emptiness and unread bytes -/

theorem State.occ_of_isEmpty {s : State} {d : Fifo} (h : s.isEmpty d = true) : s.occ d = 0 := by
  have heq : s.inPtr d = s.outPtr d := by simpa [State.isEmpty] using h
  have hint := subMod_int (s.params.w d) (s.inPtr d) (s.outPtr d)
  rw [heq, sub_self, Int.zero_emod] at hint
  rw [State.occ, heq]
  exact_mod_cast hint

theorem State.isEmpty_of_unread_ne_nil {s : State} {d : Fifo} (h : s.unread d ≠ []) : s.isEmpty d = false :=
  Bool.eq_false_iff.2 fun hemp => h (State.unread_eq_nil (State.occ_of_isEmpty hemp))

theorem FifoInv.isEmpty_of_unread_eq_nil {s : State} {d : Fifo} (h : FifoInv s d) (hnil : s.unread d = []) :
    s.isEmpty d = true :=
  (State.isEmpty_iff h.inRange h.outRange).2 (by rw [← State.unread_length, hnil]; rfl)

theorem ReadyInv.fifo {s : State} (h : ReadyInv s) : ∀ d, FifoInv s d
  | .rx => h.rx
  | .tx => h.tx

/-- A TX FIFO that is not full has room: its occupancy never passes the capacity (spec/10_state.md R36). -/
theorem ReadyInv.occ_tx_lt {s : State} (h : ReadyInv s) (hfull : s.isFull .tx = false) :
    s.occ .tx < s.params.cap .tx :=
  lt_of_le_of_ne h.txBound (by simpa [State.isFull] using hfull)

/-- Under `DROP_NEWEST` a byte is stored only where there is room (spec/10_state.md R35, spec/41_device_port.md R96). -/
theorem ReadyInv.occ_rx_lt {s : State} (h : ReadyInv s) (ho : s.params.rxOvf = .dropNewest)
    (hstore : s.dropsNewest = false) : s.occ .rx < s.params.cap .rx :=
  lt_of_le_of_ne (h.rxBound ho) (by simpa [State.dropsNewest, ho, State.isFull] using hstore)

/-! ### The effects on the unread bytes -/

theorem State.raiseFault_sameFifo (s : State) (c : FaultCode) (d : Fifo) : SameFifo s (s.raiseFault c) d := by
  cases d <;> exact ⟨rfl, rfl, rfl, rfl⟩

theorem State.deliverResult_sameFifo (s : State) (v : Result) (d : Fifo) : SameFifo s (s.deliverResult v) d := by
  cases d <;> exact ⟨rfl, rfl, rfl, rfl⟩

theorem State.emit_sameFifo (s : State) (b : Byte) (d : Fifo) : SameFifo s (s.emit b) d := by
  cases d <;> exact ⟨rfl, rfl, rfl, rfl⟩

theorem State.readOnEmpty_sameFifo (s : State) (d : Fifo) : SameFifo s s.readOnEmpty d := by
  obtain ⟨v, n, heq⟩ := s.readOnEmpty_eq
  rw [heq]
  cases d <;> exact ⟨rfl, rfl, rfl, rfl⟩

/-- An accepted byte becomes the newest unread one of the TX FIFO. -/
theorem writeByteEffect_unread {s : State} (h : ReadyInv s) (hfull : s.isFull .tx = false) (b : Byte) :
    (writeByteEffect b s).unread .tx = s.unread .tx ++ [b] := by
  rw [writeByteEffect_of_not_full hfull, (State.setTxie_sameFifo _ true .tx).unread,
    State.enqueue_unread h.tx.inRange h.tx.outRange (h.occ_tx_lt hfull)]

theorem readByteEffect_of_not_empty {s : State} (h : s.isEmpty .rx = false) :
    readByteEffect s = (s.advanceOut .rx).deliverResult (.byte (s.oldest .rx)) := by
  simp [readByteEffect, h]

/-- A read of a non-empty RX FIFO takes the oldest of its unread bytes. -/
theorem unread_readByteEffect {s : State} (h : ReadyInv s) (hne : s.isEmpty .rx = false) :
    s.unread .rx = s.oldest .rx :: (readByteEffect s).unread .rx := by
  rw [readByteEffect_of_not_empty hne, (State.deliverResult_sameFifo _ _ .rx).unread]
  exact State.unread_advanceOut h.rx.inRange h.rx.outRange hne

/-- `TX_SERVICE` gives the oldest of the unread bytes to the transmitter: armed, the TX FIFO is not empty (R37). -/
theorem unread_txServiceEffect {s : State} (h : ReadyInv s) (harmed : s.txie = true) :
    s.unread .tx = s.oldest .tx :: (txServiceEffect s).unread .tx ∧
      (txServiceEffect s).txline = s.txline ++ [s.oldest .tx] := by
  have hne := h.txie_iff.1 harmed
  have hdrain : s.drainOne = (s.advanceOut .tx).emit (s.oldest .tx) := by simp [State.drainOne, hne]
  obtain ⟨x, _, heq⟩ := s.drainOne.disarmIfEmpty_eq
  have hsame : SameFifo (s.advanceOut .tx) (txServiceEffect s) .tx := by
    rw [txServiceEffect, heq, hdrain]
    exact ((s.advanceOut .tx).emit_sameFifo _ .tx).trans (State.setTxie_sameFifo _ x .tx)
  refine ⟨?_, by rw [txServiceEffect, heq, hdrain, State.emit_txline, State.advanceOut_txline]⟩
  rw [hsame.unread]
  exact State.unread_advanceOut h.tx.inRange h.tx.outRange hne

theorem Instr.readyEffect_params (i : Instr) (s : State) : (Instr.readyEffect i s).params = s.params := by
  cases i with
  | init => rfl
  | writeByte b => exact (writeByteEffect_sameConfig b s).params
  | readByte => exact (readByteEffect_sameConfig s).params
  | available => rfl
  | rxByte r => exact (rxByteEffect_sameConfig r s).params
  | txService => exact (s.drainOne_sameConfig.trans s.drainOne.disarmIfEmpty_sameConfig).params

/-- An operation that neither writes nor serves TX leaves the TX FIFO alone. -/
theorem Instr.readyEffect_sameFifo_tx {i : Instr} (s : State) (hwrite : ∀ b, i ≠ .writeByte b)
    (hserve : i ≠ .txService) : SameFifo s (Instr.readyEffect i s) .tx := by
  have howner := Instr.readyEffect_writtenByOwner i s
  refine ⟨Instr.readyEffect_params i s, ?_, ?_, ?_⟩ <;> by_contra hne
  · obtain ⟨b, hb⟩ := howner.txIn hne
    exact hwrite b hb
  · exact hserve (howner.txOut hne)
  · obtain ⟨b, hb⟩ := howner.txBuf hne
    exact hwrite b hb

/-- An operation that neither receives nor reads leaves the RX FIFO alone. -/
theorem Instr.readyEffect_sameFifo_rx {i : Instr} (s : State) (hreceive : ∀ r, i ≠ .rxByte r)
    (hread : i ≠ .readByte) : SameFifo s (Instr.readyEffect i s) .rx := by
  have howner := Instr.readyEffect_writtenByOwner i s
  refine ⟨Instr.readyEffect_params i s, ?_, ?_, ?_⟩ <;> by_contra hne
  · obtain ⟨r, hr⟩ := howner.rxIn hne
    exact hreceive r hr
  · exact hread (howner.rxOut hne)
  · obtain ⟨r, hr⟩ := howner.rxBuf hne
    exact hreceive r hr

theorem Instr.readyEffect_txline {i : Instr} (s : State) (hserve : i ≠ .txService) :
    (Instr.readyEffect i s).txline = s.txline := by
  by_contra hne
  exact hserve ((Instr.readyEffect_writtenByOwner i s).txline hne)

/-! ### AVAILABLE, and the cells of the unread bytes -/

/-- Settles O25: `AVAILABLE` changes `results` and `pc` alone, so the second one counts the same occupancy. -/
theorem availableIsIdempotent : Obligations.AvailableIsIdempotent := by
  intro s t u hp hs ht
  obtain ⟨_, rfl⟩ := (exec_next_of_ready hp).1 hs
  have hp' : (Instr.readyEffect .available s).phase = .ready := hp
  obtain ⟨_, rfl⟩ := (exec_next_of_ready hp').1 ht
  have hsame : ∀ v d, SameFifo v (Instr.readyEffect .available v) d := fun v d =>
    (v.deliverResult_sameFifo _ d).trans (State.advancePc_sameFifo _ d)
  refine ⟨⟨s.occ .rx, rfl, ?_⟩, fun d a => ?_, rfl, rfl, rfl, rfl, rfl, rfl, rfl, rfl⟩
  · have hocc : (Instr.readyEffect .available s).occ .rx = s.occ .rx := (hsame s .rx).occ
    rw [← hocc]
    rfl
  · exact ((hsame s d).trans (hsame _ d)).cell a

/-- Settles O46: a power-on state meets the invariant, every schedule keeps it, and it says so of both FIFOs. -/
theorem unreadCellsHaveBeenWritten : Obligations.UnreadCellsHaveBeenWritten := by
  intro s₀ s us hpow _ _ hrun hp d
  exact (((hpow.blockInv.runTurns hrun).ready hp).fifo d).written

end Sys2Proof.Machine
end

section
/-! Conservation over schedules (spec/20_memory.md R52, R55): what a FIFO gave out and still holds is what it held and
took in, in order. -/

namespace Sys2Proof.Machine

/-! ### From one turn to a schedule -/

theorem collect_cons_of_next {u : Turn} {us : List Turn} {s v : State} (f : State → Turn → List Byte)
    (h : takeTurn u s = .next v) : collect f (u :: us) s = f s u ++ collect f us v := by
  simp [collect, h]

theorem collect_nil_bytes (us : List Turn) (s : State) : collect (fun _ _ => []) us s = [] := by
  induction us generalizing s with
  | nil => rfl
  | cons u us ih => cases h : takeTurn u s <;> simp [collect, h, ih]

/-- A conservation law of one turn is one of every schedule: `held` gives out `given` at its front and takes in `taken`
at its back, from states of a set `I` that every turn keeps. -/
theorem collect_conserved {I : State → Prop} {given taken : State → Turn → List Byte} {held : State → List Byte}
    (hkeep : ∀ {u s v}, I s → takeTurn u s = .next v → I v)
    (hturn : ∀ {u s v}, I s → takeTurn u s = .next v → given s u ++ held v = held s ++ taken s u)
    {us : List Turn} {s s' : State} (hs : I s) (hrun : runTurns us s = some s') :
    collect given us s ++ held s' = held s ++ collect taken us s := by
  induction us generalizing s with
  | nil =>
    obtain rfl : s = s' := Option.some.inj hrun
    simp [collect]
  | cons u us ih =>
    obtain ⟨v, hv, hrest⟩ := runTurns_cons.1 hrun
    rw [collect_cons_of_next given hv, collect_cons_of_next taken hv]
    calc given s u ++ collect given us v ++ held s'
        = given s u ++ (collect given us v ++ held s') := List.append_assoc ..
      _ = given s u ++ held v ++ collect taken us v := by rw [ih (hkeep hs hv) hrest, List.append_assoc]
      _ = held s ++ (taken s u ++ collect taken us v) := by rw [hturn hs hv, List.append_assoc]

/-! ### Turns after `INIT` -/

/-- The block meets the invariant and has left `UNINIT`: what holds from a `READY` state on, after a fault too. -/
structure Initialised (s : State) : Prop where
  inv : BlockInv s
  phase : s.phase ≠ .uninit

/-- Only a `READY` state has a turn, once `UNINIT` is left (spec/60_exceptions.md R117). -/
theorem Initialised.ready_of_takeTurn {u : Turn} {s v : State} (h : Initialised s) (ht : takeTurn u s = .next v) :
    s.phase = .ready := by
  have hlive := (takeTurn_next.1 ht).1
  cases hp : s.phase with
  | uninit => exact absurd hp h.phase
  | ready => rfl
  | faulted => exact absurd hp hlive

/-- All a turn in `READY` can do: a fault, with no operation performed, or the effect of its operation. -/
theorem takeTurn_of_ready {u : Turn} {s v : State} (hp : s.phase = .ready) (ht : takeTurn u s = .next v) :
    (∃ c, s.operationOf u = none ∧ v = s.raiseFault c) ∨
      ∃ i, s.operationOf u = some i ∧ (i = .txService → s.txie = true) ∧ v = Instr.readyEffect i s := by
  rcases takeTurn_cases ht with ⟨c, _, _, hop, rfl⟩ | ⟨i, hop, _, he⟩
  · exact .inl ⟨c, hop, rfl⟩
  · exact .inr ⟨i, hop, (exec_next_of_ready hp).1 he⟩

theorem Initialised.takeTurn {u : Turn} {s v : State} (h : Initialised s) (ht : takeTurn u s = .next v) :
    Initialised v where
  inv := h.inv.takeTurn ht
  phase := by
    have hp := h.ready_of_takeTurn ht
    rcases takeTurn_of_ready hp ht with ⟨c, _, rfl⟩ | ⟨i, _, _, rfl⟩
    · simp
    · intro huninit
      have hfault := (Instr.readyEffect_writtenByOwner i s).phase (by simp [huninit, hp])
      simp [huninit] at hfault

/-! ### TX: the line and the unread bytes -/

/-- What a turn that leaves TX alone does to the line and the unread bytes: nothing. -/
theorem SameFifo.txStream {s v : State} (h : SameFifo s v .tx) (hline : v.txline = s.txline) :
    v.txline ++ v.unread .tx = s.txline ++ s.unread .tx := by
  rw [h.unread, hline]

/-- One turn appends the byte `WRITE_BYTE` accepted; `TX_SERVICE` moves a byte from the FIFO to the line. -/
theorem Initialised.txStream_takeTurn {u : Turn} {s v : State} (h : Initialised s)
    (ht : Machine.takeTurn u s = .next v) :
    v.txline ++ v.unread .tx = s.txline ++ s.unread .tx ++ s.acceptedTx u := by
  have hp := h.ready_of_takeTurn ht
  have hinv := h.inv.ready hp
  rcases takeTurn_of_ready hp ht with ⟨c, hop, rfl⟩ | ⟨i, hop, harmed, rfl⟩
  · simpa [State.acceptedTx, hop] using (s.raiseFault_sameFifo c .tx).txStream rfl
  · cases i with
    | writeByte b =>
      have hline : (Instr.readyEffect (.writeByte b) s).txline = s.txline := Instr.readyEffect_txline s (by simp)
      have hunread : (Instr.readyEffect (.writeByte b) s).unread .tx = (writeByteEffect b s).unread .tx :=
        ((writeByteEffect b s).advancePc_sameFifo .tx).unread
      cases hfull : s.isFull .tx with
      | true => simp [State.acceptedTx, hop, hfull, hline, hunread, writeByteEffect_of_full hfull]
      | false => simp [State.acceptedTx, hop, hfull, hp, hline, hunread, writeByteEffect_unread hinv hfull]
    | txService =>
      obtain ⟨hunread, hline⟩ := unread_txServiceEffect hinv (harmed rfl)
      simp [State.acceptedTx, hop, Instr.readyEffect, hline, hunread]
    | init | readByte | available | rxByte _ =>
      simpa [State.acceptedTx, hop] using
        (Instr.readyEffect_sameFifo_tx s (by simp) (by simp)).txStream (Instr.readyEffect_txline s (by simp))

/-- Settles O49: the law of one turn, along the schedule. -/
theorem txLineIsAcceptedBytesInOrder : Obligations.TxLineIsAcceptedBytesInOrder := by
  intro us s s' hs hp hrun
  have hinit : Initialised s := ⟨hs, by simp [hp]⟩
  have hlaw := collect_conserved (given := fun _ _ => []) (held := fun v => v.txline ++ v.unread .tx)
    Initialised.takeTurn Initialised.txStream_takeTurn hinit hrun
  rwa [collect_nil_bytes, List.nil_append] at hlaw

/-! ### RX under `DROP_NEWEST`: the reads and the unread bytes -/

/-- After `INIT`, under `DROP_NEWEST`. -/
structure Dropping (s : State) : Prop where
  initialised : Initialised s
  policy : s.params.rxOvf = .dropNewest

theorem Dropping.takeTurn {u : Turn} {s v : State} (h : Dropping s) (ht : takeTurn u s = .next v) : Dropping v where
  initialised := h.initialised.takeTurn ht
  policy := by rw [(takeTurn_sameConfig ht).params]; exact h.policy

/-- One turn gives the byte `READ_BYTE` took, from the front, and appends the byte `RX_BYTE` stored. -/
theorem Dropping.rxStream_takeTurn {u : Turn} {s v : State} (h : Dropping s) (ht : Machine.takeTurn u s = .next v) :
    s.takenRx u ++ v.unread .rx = s.unread .rx ++ s.acceptedRx u := by
  have hp := h.initialised.ready_of_takeTurn ht
  have hinv := h.initialised.inv.ready hp
  rcases takeTurn_of_ready hp ht with ⟨c, hop, rfl⟩ | ⟨i, hop, _, rfl⟩
  · simpa [State.takenRx, State.acceptedRx, hop] using (s.raiseFault_sameFifo c .rx).unread
  · cases i with
    | readByte =>
      have hunread : (Instr.readyEffect .readByte s).unread .rx = (readByteEffect s).unread .rx :=
        ((readByteEffect s).advancePc_sameFifo .rx).unread
      cases hemp : s.isEmpty .rx with
      | true =>
        have hkeep : (readByteEffect s).unread .rx = s.unread .rx := by
          simpa [readByteEffect, hemp] using (s.readOnEmpty_sameFifo .rx).unread
        simp [State.takenRx, State.acceptedRx, hop, hemp, hunread, hkeep]
      | false => simp [State.takenRx, State.acceptedRx, hop, hemp, hp, hunread, unread_readByteEffect hinv hemp]
    | rxByte r =>
      cases hdrop : s.dropsNewest with
      | true =>
        simp [State.takenRx, State.acceptedRx, hop, hdrop, Instr.readyEffect, rxByteEffect_of_drop hdrop]
      | false =>
        have hstored := State.enqueue_unread hinv.rx.inRange hinv.rx.outRange (hinv.occ_rx_lt h.policy hdrop) r
        simp [State.takenRx, State.acceptedRx, hop, hdrop, hp, Instr.readyEffect, rxByteEffect_of_store hdrop, hstored]
    | init | writeByte _ | available | txService =>
      simpa [State.takenRx, State.acceptedRx, hop] using
        (Instr.readyEffect_sameFifo_rx s (by simp) (by simp)).unread

/-- Settles O50: the law of one turn, along the schedule. -/
theorem rxReadsAreArrivalsInOrder : Obligations.RxReadsAreArrivalsInOrder := by
  intro us s s' hs hp hpolicy hrun
  have hdrop : Dropping s := ⟨⟨hs, by simp [hp]⟩, hpolicy⟩
  exact collect_conserved Dropping.takeTurn Dropping.rxStream_takeTurn hdrop hrun

/-- Settles O51: by O50's law, bytes not yet read are still unread at the end. -/
theorem availableIsAGuarantee : Obligations.AvailableIsAGuarantee := by
  intro us s s' hs hp hpolicy hrun hfewer
  refine State.isEmpty_of_unread_ne_nil fun hnil => ?_
  have hlaw := congrArg List.length (rxReadsAreArrivalsInOrder us s s' hs hp hpolicy hrun)
  rw [hnil, List.append_nil, List.length_append, State.unread_length] at hlaw
  omega

end Sys2Proof.Machine
end

section
/-! The FIFO law (spec/20_memory.md R60): a FIFO filled from empty gives back what was stored, in order. -/

namespace Sys2Proof.Machine

/-- A `READY` state that meets the invariant. -/
structure Operating (s : State) : Prop where
  inv : BlockInv s
  ready : s.phase = .ready

theorem Operating.readyInv {s : State} (h : Operating s) : ReadyInv s := h.inv.ready h.ready

/-- From `s` to `t` the bytes `bs` have been stored in FIFO `d`, and `trace` has not moved. -/
structure Stored {α : Type} (d : Fifo) (trace : State → List α) (s t : State) (bs : List Byte) : Prop where
  operating : Operating t
  params : t.params = s.params
  unread : t.unread d = s.unread d ++ bs
  trace : trace t = trace s

/-- From `s` to `t` the bytes `bs` have left FIFO `d` and stand on `trace`, each as `shown` gives it. -/
structure Consumed {α : Type} (d : Fifo) (trace : State → List α) (shown : Byte → α) (s t : State)
    (bs : List Byte) : Prop where
  operating : Operating t
  unread : s.unread d = bs ++ t.unread d
  trace : trace t = trace s ++ bs.map shown

section

variable {α : Type} {d : Fifo} {trace : State → List α} {shown : Byte → α} {s t u : State} {bs cs : List Byte}

theorem Stored.occ (h : Stored d trace s t bs) : t.occ d = s.occ d + bs.length := by
  rw [← State.unread_length, h.unread, List.length_append, State.unread_length]

theorem Stored.trans (h : Stored d trace s t bs) (h' : Stored d trace t u cs) : Stored d trace s u (bs ++ cs) where
  operating := h'.operating
  params := h'.params.trans h.params
  unread := by rw [h'.unread, h.unread, List.append_assoc]
  trace := h'.trace.trans h.trace

theorem Consumed.trans (h : Consumed d trace shown s t bs) (h' : Consumed d trace shown t u cs) :
    Consumed d trace shown s u (bs ++ cs) where
  operating := h'.operating
  unread := by rw [h.unread, h'.unread, List.append_assoc]
  trace := by rw [h'.trace, h.trace, List.map_append, List.append_assoc]

theorem runInstrs_cons_of_next {i : Instr} (is : List Instr) (h : exec i s = .next t) :
    runInstrs (i :: is) s = runInstrs is t := by
  simp [runInstrs, h]

/-- A producer that stores one byte where there is room stores as many as there is room for. -/
theorem runInstrs_stored {op : Byte → Instr}
    (hop : ∀ {s}, Operating s → s.occ d < s.params.cap d → ∀ b,
      ∃ t, exec (op b) s = .next t ∧ Stored d trace s t [b])
    (bs : List Byte) (hs : Operating s) (hroom : s.occ d + bs.length ≤ s.params.cap d) :
    ∃ t, runInstrs (bs.map op) s = some t ∧ Stored d trace s t bs := by
  induction bs generalizing s with
  | nil => exact ⟨s, rfl, hs, rfl, (List.append_nil _).symm, rfl⟩
  | cons b bs ih =>
    rw [List.length_cons] at hroom
    obtain ⟨v, hv, hstored⟩ := hop hs (by omega) b
    have hocc : v.occ d = s.occ d + 1 := hstored.occ
    obtain ⟨t, ht, hrest⟩ := ih hstored.operating (by rw [hocc, hstored.params]; omega)
    exact ⟨t, (runInstrs_cons_of_next _ hv).trans ht, hstored.trans hrest⟩

/-- A consumer that takes one byte of a non-empty FIFO takes all of them. -/
theorem runInstrs_consumed {op : Instr}
    (hop : ∀ {s}, Operating s → s.isEmpty d = false →
      ∃ b t, exec op s = .next t ∧ Consumed d trace shown s t [b])
    (hs : Operating s) (hbs : s.unread d = bs) :
    ∃ t, runInstrs (List.replicate bs.length op) s = some t ∧ Consumed d trace shown s t bs := by
  induction bs generalizing s with
  | nil => exact ⟨s, rfl, hs, rfl, (List.append_nil _).symm⟩
  | cons b bs ih =>
    obtain ⟨b', v, hv, htaken⟩ := hop hs (State.isEmpty_of_unread_ne_nil (by simp [hbs]))
    obtain ⟨rfl, hrest⟩ : b = b' ∧ bs = v.unread d := List.cons.inj (hbs.symm.trans htaken.unread)
    obtain ⟨t, ht, hall⟩ := ih htaken.operating hrest.symm
    exact ⟨t, (runInstrs_cons_of_next _ hv).trans ht, htaken.trans hall⟩

/-- The FIFO law of a FIFO, from the law of one producer and that of one consumer. -/
theorem fifoLaw_of_steps {store : Byte → Instr} {consume : Instr}
    (hstore : ∀ {s}, Operating s → s.occ d < s.params.cap d → ∀ b,
      ∃ t, exec (store b) s = .next t ∧ Stored d trace s t [b])
    (hconsume : ∀ {s}, Operating s → s.isEmpty d = false →
      ∃ b t, exec consume s = .next t ∧ Consumed d trace shown s t [b])
    (hs : Operating s) (hemp : s.isEmpty d = true) (hroom : bs.length ≤ s.params.cap d) :
    ∃ u t, runInstrs (bs.map store) s = some u ∧ u.occ d = bs.length ∧
      runInstrs (List.replicate bs.length consume) u = some t ∧
      trace t = trace s ++ bs.map shown ∧ t.isEmpty d = true := by
  have hocc := State.occ_of_isEmpty hemp
  obtain ⟨u, hu, hfilled⟩ := runInstrs_stored hstore bs hs (by omega)
  have hunread : u.unread d = bs := by rw [hfilled.unread, State.unread_eq_nil hocc, List.nil_append]
  obtain ⟨t, ht, hdrained⟩ := runInstrs_consumed hconsume hfilled.operating hunread
  have hnil : t.unread d = [] := List.self_eq_append_right.1 (hunread.symm.trans hdrained.unread)
  refine ⟨u, t, hu, by rw [hfilled.occ, hocc, Nat.zero_add], ht, by rw [hdrained.trace, hfilled.trace], ?_⟩
  exact (hdrained.operating.readyInv.fifo d).isEmpty_of_unread_eq_nil hnil

end

/-! ### One producer and one consumer of each FIFO -/

theorem State.not_isFull_of_occ_lt {s : State} {d : Fifo} (h : s.occ d < s.params.cap d) : s.isFull d = false := by
  simp [State.isFull, h.ne]

/-- Where there is room no policy drops the byte (spec/41_device_port.md R95). -/
theorem Operating.rxByte {s : State} (h : Operating s) (hroom : s.occ .rx < s.params.cap .rx) (r : Byte) :
    ∃ t, exec (.rxByte r) s = .next t ∧ Stored .rx State.results s t [r] := by
  have hstore : s.dropsNewest = false := by simp [State.dropsNewest, State.not_isFull_of_occ_lt hroom]
  have hexec : exec (.rxByte r) s = .next (s.enqueue .rx r) :=
    (exec_next_of_ready h.ready).2 ⟨by simp, (rxByteEffect_of_store hstore).symm⟩
  exact ⟨_, hexec, ⟨h.inv.exec hexec, h.ready⟩, rfl,
    State.enqueue_unread h.readyInv.rx.inRange h.readyInv.rx.outRange hroom r, rfl⟩

/-- A read of a non-empty RX FIFO returns its oldest byte (spec/40_host_port.md R82). -/
theorem Operating.readByte {s : State} (h : Operating s) (hne : s.isEmpty .rx = false) :
    ∃ b t, exec .readByte s = .next t ∧ Consumed .rx State.results Result.byte s t [b] := by
  have hexec : exec .readByte s = .next (readByteEffect s).advancePc :=
    (exec_next_of_ready h.ready).2 ⟨by simp, rfl⟩
  have heffect := readByteEffect_of_not_empty hne
  refine ⟨s.oldest .rx, _, hexec, ⟨h.inv.exec hexec, ?_⟩, ?_, ?_⟩
  · rw [heffect]
    exact h.ready
  · rw [((readByteEffect s).advancePc_sameFifo .rx).unread]
    exact unread_readByteEffect h.readyInv hne
  · rw [heffect]
    rfl

/-- Where there is room the byte is accepted (spec/40_host_port.md R79). -/
theorem Operating.writeByte {s : State} (h : Operating s) (hroom : s.occ .tx < s.params.cap .tx) (b : Byte) :
    ∃ t, exec (.writeByte b) s = .next t ∧ Stored .tx State.txline s t [b] := by
  have hfull := State.not_isFull_of_occ_lt hroom
  have hexec : exec (.writeByte b) s = .next (writeByteEffect b s).advancePc :=
    (exec_next_of_ready h.ready).2 ⟨by simp, rfl⟩
  have heffect := writeByteEffect_of_not_full (b := b) hfull
  refine ⟨_, hexec, ⟨h.inv.exec hexec, ?_⟩, ?_, ?_, ?_⟩
  · rw [heffect]
    exact h.ready
  · exact Instr.readyEffect_params (.writeByte b) s
  · rw [((writeByteEffect b s).advancePc_sameFifo .tx).unread]
    exact writeByteEffect_unread h.readyInv hfull b
  · exact Instr.readyEffect_txline (i := .writeByte b) s (by simp)

/-- A non-empty TX FIFO is armed, so `TX_SERVICE` is enabled (spec/10_state.md R37). -/
theorem Operating.txService {s : State} (h : Operating s) (hne : s.isEmpty .tx = false) :
    ∃ b t, exec .txService s = .next t ∧ Consumed .tx State.txline id s t [b] := by
  have harmed := h.readyInv.txie_iff.2 hne
  have hexec : exec .txService s = .next (txServiceEffect s) :=
    (exec_next_of_ready h.ready).2 ⟨fun _ => harmed, rfl⟩
  obtain ⟨n, l, x, _, heffect⟩ := txServiceEffect_eq s
  obtain ⟨hunread, hline⟩ := unread_txServiceEffect h.readyInv harmed
  exact ⟨s.oldest .tx, _, hexec, ⟨h.inv.exec hexec, by rw [heffect]; exact h.ready⟩, hunread, hline⟩

/-- Settles O48: the law from one producer and one consumer, for RX and for TX. -/
theorem fifoLaw : Obligations.FifoLaw := by
  intro bs s hs hp
  have hop : Operating s := ⟨hs, hp⟩
  refine ⟨fifoLaw_of_steps Operating.rxByte Operating.readByte hop, fun hemp hroom => ?_⟩
  simpa using fifoLaw_of_steps Operating.writeByte Operating.txService hop hemp hroom

end Sys2Proof.Machine
end

section
/-! The decoder and the encoder are each other's inverse, and which words are illegal, and how many are not
(spec/30_encoding.md R62 to R73). -/

namespace Sys2Proof.Machine

/-! ### The decoder, read backwards -/

theorem noOperand_eq_ok {w : OpWord} {i j : Instr} (h : noOperand w i = .ok j) : dField w = 0#8 ∧ j = i := by
  unfold noOperand at h
  split at h
  next hd => exact ⟨hd, (Except.ok.inj h).symm⟩
  next => cases h

theorem noOperand_eq_error {w : OpWord} {i : Instr} {e : DecodeError} (h : noOperand w i = .error e) :
    dField w ≠ 0#8 := by
  unfold noOperand at h
  split at h
  next => cases h
  next hd => exact hd

/-- Two words with a zero reserved field that agree in `P`, `OP` and `D` are one word (spec/30_encoding.md R62). -/
theorem eq_of_fields {w v : OpWord} (hw : rsvField w = 0#4) (hv : rsvField v = 0#4) (hp : portBit w = portBit v)
    (ho : opField w = opField v) (hd : dField w = dField v) : w = v := by
  rw [← packWord_fields hw, ← packWord_fields hv, hp, ho, hd]

theorem rsvField_encode (i : Instr) : rsvField (encode i) = 0#4 := by
  cases i <;> exact rsvField_packWord _ _ _

/-- An operation is read from its own encoding alone: each branch of the decoder has looked at every bit (R73). -/
theorem eq_encode_of_decode {w : OpWord} {i : Instr} (h : decode w = .ok i) : w = encode i := by
  unfold decode at h
  split at h
  next hr =>
    have hfields := eq_of_fields hr (rsvField_encode i)
    split at h
    case h_1 hp ho | h_3 hp ho | h_4 hp ho | h_6 hp ho =>
      obtain ⟨hd, rfl⟩ := noOperand_eq_ok h
      exact hfields (by simp [encode, hp]) (BitVec.eq_of_toNat_eq (by simp [encode, ho])) (by simp [encode, hd])
    case h_2 hp ho | h_5 hp ho =>
      obtain rfl := Except.ok.inj h
      exact hfields (by simp [encode, hp]) (BitVec.eq_of_toNat_eq (by simp [encode, ho])) (by simp [encode])
    case h_7 => cases h
  next => cases h

/-- Settles O1: an encoding is read back, and no other word is read as the operation. -/
theorem decodeInvertsEncode : Obligations.DecodeInvertsEncode := fun _ i =>
  ⟨eq_encode_of_decode, fun h => h ▸ decode_encode i⟩

/-- Settles O3: the legal words are written-out encodings, and the decoder rejects the others. -/
theorem specWordsDecode : Obligations.SpecWordsDecode := by
  have hdecode : ∀ {w : OpWord} {i : Instr}, w = encode i → decode w = .ok i := (decodeInvertsEncode _ _).2
  exact ⟨hdecode (by decide), hdecode (by decide), hdecode (by decide), hdecode (by decide), hdecode (by decide),
    hdecode (by decide), by decide, by decide, by decide, by decide⟩

theorem encode_injective : Function.Injective encode := fun i j h =>
  Except.ok.inj ((decode_encode i).symm.trans ((decodeInvertsEncode _ j).2 h))

/-! ### Illegal words -/

/-- The clauses of R70, (a) to (d). -/
theorem illegalWord_iff {w : OpWord} : illegalWord w = true ↔
    (rsvField w ≠ 0#4 ∨ (portBit w = false ∧ 4 ≤ (opField w).toNat) ∨ (portBit w = true ∧ 2 ≤ (opField w).toNat) ∨
      (rsvField w = 0#4 ∧ dField w ≠ 0#8 ∧
        ((portBit w = false ∧ (opField w = 0#3 ∨ opField w = 2#3 ∨ opField w = 3#3)) ∨
          (portBit w = true ∧ opField w = 1#3)))) := by
  simp only [illegalWord, wantsZeroOperand, Bool.or_eq_true, Bool.and_eq_true, Bool.not_eq_true', bne_iff_ne,
    beq_iff_eq, decide_eq_true_eq]
  tauto

theorem illegalWord_encode (i : Instr) : illegalWord (encode i) = false := by
  cases i with
  | init => exact Laws.EncodesLegalWord.init.1
  | writeByte b => exact (Laws.EncodesLegalWord.writeByte b).1
  | readByte => exact Laws.EncodesLegalWord.readByte.1
  | available => exact Laws.EncodesLegalWord.available.1
  | rxByte r => exact (Laws.EncodesLegalWord.rxByte r).1
  | txService => exact Laws.EncodesLegalWord.txService.1

/-- What the decoder rejects breaks R70: (a) outside its table, (b) and (c) in the table's last row, (d) where it wants
a zero operand. -/
theorem illegalWord_of_decode_error {w : OpWord} {e : DecodeError} (h : decode w = .error e) :
    illegalWord w = true := by
  rw [illegalWord_iff]
  unfold decode at h
  split at h
  next hr =>
    right
    split at h
    case h_1 hp ho | h_3 hp ho | h_4 hp ho | h_6 hp ho =>
      simp [hr, hp, noOperand_eq_error h, BitVec.toNat_eq, ho]
    case h_2 | h_5 => cases h
    case h_7 h0 h1 h2 h3 h4 h5 =>
      cases hp : portBit w with
      | false =>
        simp only [hp, true_imp_iff, imp_false] at h0 h1 h2 h3
        exact .inl ⟨rfl, by omega⟩
      | true =>
        simp only [hp, true_imp_iff, imp_false] at h4 h5
        exact .inr (.inl ⟨rfl, by omega⟩)
  next hr => exact .inl hr

/-- R70's predicate is the decoder's own answer. -/
theorem illegalWord_iff_decode_error {w : OpWord} : illegalWord w = true ↔ ∃ e, decode w = .error e := by
  refine ⟨fun h => ?_, fun ⟨_, he⟩ => illegalWord_of_decode_error he⟩
  cases hd : decode w with
  | error e => exact ⟨e, rfl⟩
  | ok i => simp [eq_encode_of_decode hd, illegalWord_encode] at h

theorem illegalWord_eq_false_iff {w : OpWord} : illegalWord w = false ↔ ∃ i, w = encode i := by
  refine ⟨fun h => ?_, fun ⟨i, hi⟩ => hi ▸ illegalWord_encode i⟩
  cases hd : decode w with
  | error e => simp [illegalWord_of_decode_error hd] at h
  | ok i => exact ⟨i, eq_encode_of_decode hd⟩

/-! ### How many words are legal -/

/-- The operations, counted off: four without an operand, and two with every byte. -/
def instrAt : Fin 4 ⊕ Byte ⊕ Byte → Instr
  | .inl 0 => .init
  | .inl 1 => .readByte
  | .inl 2 => .available
  | .inl 3 => .txService
  | .inr (.inl b) => .writeByte b
  | .inr (.inr r) => .rxByte r

/-- The place of an operation in that count. -/
def instrIndex : Instr → Fin 4 ⊕ Byte ⊕ Byte
  | .init => .inl 0
  | .readByte => .inl 1
  | .available => .inl 2
  | .txService => .inl 3
  | .writeByte b => .inr (.inl b)
  | .rxByte r => .inr (.inr r)

theorem instrAt_instrIndex : Function.LeftInverse instrAt instrIndex := fun i => by cases i <;> rfl

theorem instrIndex_instrAt : Function.LeftInverse instrIndex instrAt
  | .inl n => by fin_cases n <;> rfl
  | .inr (.inl _) => rfl
  | .inr (.inr _) => rfl

/-- The legal words, as numbers below 2 ^ 16. -/
def legalWords : Finset (Fin 65536) := Finset.univ.filter fun n => illegalWord (BitVec.ofFin n) = false

theorem mem_legalWords {n : Fin 65536} : n ∈ legalWords ↔ ∃ i, BitVec.ofFin n = encode i :=
  Finset.mem_filter_univ n |>.trans illegalWord_eq_false_iff

/-- The legal words are the encodings of the operations. -/
theorem legalWords_eq_image : legalWords = Finset.univ.image fun c => (encode (instrAt c)).toFin := by
  ext n
  simp only [mem_legalWords, Finset.mem_image, Finset.mem_univ, true_and, instrAt_instrIndex.surjective.exists]
  exact exists_congr fun c => ⟨fun h => by rw [← h], fun h => by rw [← h]⟩

theorem card_legalWords : legalWords.card = 516 := by
  have hinj : Function.Injective fun c => (encode (instrAt c)).toFin := fun _ _ h =>
    instrIndex_instrAt.injective (encode_injective (BitVec.toFin_inj.1 h))
  have hbyte : Fintype.card Byte = 256 := by simp [← FinEnum.card_eq_fintypeCard]
  rw [legalWords_eq_image, Finset.card_image_of_injective _ hinj, Finset.card_univ]
  simp [hbyte]

end Sys2Proof.Machine
end

section
/-! What a turn does with its word: fault on an illegal or foreign one, else run its operation, and the step takes the
next turn (spec/30_encoding.md R61, R70, R71; spec/60_exceptions.md R120). -/

namespace Sys2Proof.Machine

/-! ### Illegal and foreign words -/

theorem takeTurn_of_faulted {t : Turn} {s : State} (h : s.phase = .faulted) :
    takeTurn t s = .fault (.notEnabled t.agent) := by
  unfold takeTurn
  cases s.wordOf t <;> simp [deliver, h]

theorem exec_of_faulted {i : Instr} {s : State} (h : s.phase = .faulted) :
    exec i s = .fault (.notEnabled i.issuer) :=
  exec_of_not_enabledIn (by simp [Instr.enabledIn_iff, h])

theorem takeTurn_of_illegalWord {t : Turn} {s : State} {w : OpWord} (hw : s.wordOf t = some w)
    (hi : illegalWord w = true) (hp : s.phase ≠ .faulted) : takeTurn t s = .next (s.raiseFault .illegal) := by
  obtain ⟨e, he⟩ := illegalWord_iff_decode_error.1 hi
  exact takeTurn_next.2 ⟨hp, w, hw, .inl ⟨e, he, rfl⟩⟩

/-- Settles O2: R70's predicate stands between its clauses and the decoder, and the legal words are counted through the
operations they encode. -/
theorem illegalWordsFault : Obligations.IllegalWordsFault := by
  refine ⟨fun w => illegalWord_iff_decode_error.symm.trans illegalWord_iff, fun w => illegalWord_iff_decode_error,
    fun w => illegalWord_eq_false_iff, card_legalWords, fun t s w hw hi => ?_⟩
  split_ifs with hp
  · exact takeTurn_of_faulted hp
  · exact takeTurn_of_illegalWord hw hi hp

/-- Settles O13: the port check of R71 stands behind the decoder's and before the operation's own. -/
theorem portViolationFaults : Obligations.PortViolationFaults := fun _ _ w i hw hd hi hp =>
  takeTurn_next.2 ⟨hp, w, hw, .inr (.inl ⟨i, hd, hi, rfl⟩)⟩

/-! ### The step -/

theorem State.nextTurn_of_placed {s : State} {t : Turn} {rest : List Turn} (h : s.agenda = t :: rest) :
    s.nextTurn = some (t, { s with agenda := rest }) := by
  simp [State.nextTurn, h]

theorem step_eq_takeTurn {s s' : State} {t : Turn} (h : s.nextTurn = some (t, s')) : step s = takeTurn t s' := by
  simp [step, h]

/-- A turn with its agent's own operation is that operation, in `FAULTED` too: neither has a step there. -/
theorem takeTurn_eq_exec {t : Turn} {s : State} {w : OpWord} {i : Instr} (hw : s.wordOf t = some w)
    (hd : decode w = .ok i) (hi : i.issuer = t.agent) : takeTurn t s = exec i s := by
  by_cases hp : s.phase = .faulted
  · rw [takeTurn_of_faulted hp, exec_of_faulted hp, hi]
  · exact takeTurn_of_decode hw hd hi.symm hp

/-- Settles O4: the placed turn, else a free choice, and then the turn's operation. -/
theorem stepRunsDecodedInstruction : Obligations.StepRunsDecodedInstruction := by
  refine ⟨fun s t rest => State.nextTurn_of_placed, fun s s' t ha hn => ?_, fun s s' t w i hn hw hd hi => ?_⟩
  · have hne : s.enabledTurns ≠ [] := fun h => by simp [State.nextTurn_eq_none ha h] at hn
    obtain ⟨u, hu, hfree⟩ := State.nextTurn_of_free ha hne
    obtain ⟨rfl, rfl⟩ := Prod.mk.inj (Option.some.inj (hfree.symm.trans hn))
    exact ⟨hu, rfl⟩
  · rw [step_eq_takeTurn hn, takeTurn_eq_exec hw hd hi]

end Sys2Proof.Machine
end

section
/-! The words of `PUTC`, results on the platform's bus, and the assembly lines of the spec (spec/30_encoding.md R74 to
R76). -/

namespace Sys2Proof.Machine

/-- The byte operand only fills the low bits of the word (R66). -/
theorem packWord_eq_or (p : BitVec 1) (op : BitVec 3) (d : Byte) :
    packWord p op d = packWord p op 0#8 ||| d.setWidth 16 := by
  apply BitVec.eq_of_getLsbD_eq
  intro k hk
  rw [BitVec.getLsbD_or, getLsbD_packWord, getLsbD_packWord, BitVec.getLsbD_setWidth]
  by_cases h : k < 8
  · simp [h, hk]
  · simp [h, BitVec.getLsbD_of_ge d k (by omega)]

theorem encode_writeByte (b : Byte) : encode (.writeByte b) = 0x1000#16 ||| b.setWidth 16 :=
  packWord_eq_or 0#1 1#3 b

theorem putc_of_ne_lineFeed {b : Byte} (h : b ≠ lineFeed) : putc b = [.writeByte b] := if_neg h

/-- Settles O57: a linefeed is two operations, and every other byte is one whose word is known from its fields. -/
theorem putcExpansion : Obligations.PutcExpansion := by
  refine ⟨by decide, by decide, fun b hb => ?_⟩
  have hputc : putc b = [.writeByte b] := putc_of_ne_lineFeed hb
  refine ⟨hputc, ?_⟩
  rw [putcWords, hputc, List.map_singleton, encode_writeByte]
  rfl

theorem Result.onBus_of_width_le {p : Config.Params} {r : Result} (h : r.width p ≤ (r.register p).width) :
    r.onBus p = some (BitVec.ofNat (r.register p).width r.number) := if_pos h

/-- Settles O59: a number of the result's width is below the register's range, so none of it is cut off. -/
theorem resultsAreZeroExtended : Obligations.ResultsAreZeroExtended := by
  intro p r hwidth hnumber
  refine ⟨_, Result.onBus_of_width_le hwidth, ?_⟩
  have hfits : r.number < 2 ^ (r.register p).width :=
    hnumber.trans_le (Nat.pow_le_pow_right (by decide) hwidth)
  rw [BitVec.toNat_ofNat, Nat.mod_eq_of_lt hfits]

/-- Settles O60: nine lines written out, which the assembler evaluates. -/
theorem assemblyExamplesOfTheSpec : Obligations.AssemblyExamplesOfTheSpec := by
  refine ⟨?_, ?_, ?_, ?_, ?_, ?_, ?_, ?_, ?_⟩ <;> decide

end Sys2Proof.Machine
end

section
/-! The host port: the checks of the host's turn in their order, and what `WRITE_BYTE`, `READ_BYTE`, `AVAILABLE` and
`PUTC` do to the state (spec/40_host_port.md R77 to R89). -/

namespace Sys2Proof.Machine

/-! ### A host operation by the phase it meets -/

/-- Before `INIT` every other host operation faults (spec/60_exceptions.md R110). -/
theorem exec_of_uninit {i : Instr} {s : State} (hp : s.phase = .uninit) (hi : i.issuer = .host) (hne : i ≠ .init) :
    exec i s = .next (s.raiseFault .uninit) :=
  (exec_next_of_uninit hp).2 (.inr ⟨hne, hi, rfl⟩)

/-- In `READY` every operation but `TX_SERVICE` is enabled. -/
theorem exec_of_ready {i : Instr} {s : State} (hp : s.phase = .ready) (hi : i ≠ .txService) :
    exec i s = .next (Instr.readyEffect i s) :=
  (exec_next_of_ready hp).2 ⟨fun h => absurd h hi, rfl⟩

/-- Outside `FAULTED` a host operation answers a next state, and `pc` moves unless it faulted. -/
theorem exec_host_pc {i : Instr} {s : State} (hp : s.phase ≠ .faulted) (hi : i.issuer = .host) :
    ∃ t, exec i s = .next t ∧ t.pc = if t.phase = .faulted then s.pc else s.pc + 1 := by
  obtain ⟨t, ht⟩ := exec_steps_of_enabledIn (Instr.enabledIn_iff.2 (.inl ⟨hi, hp⟩))
  have hpc : t.pc = if i.issuer = .host ∧ t.phase ≠ .faulted then s.pc + 1 else s.pc := exec_pcStep ht
  refine ⟨t, ht, ?_⟩
  by_cases hf : t.phase = .faulted
  · simpa [hf] using hpc
  · simpa [hf, hi] using hpc

/-! ### The host's turn -/

/-- `P` tells the host's own operations from the device agents' (spec/30_encoding.md R63). -/
theorem portBit_encode_eq_true_iff {i : Instr} : portBit (encode i) = true ↔ i.issuer ≠ .host := by
  cases i <;> simp [encode, Instr.issuer]

/-- On the host port `OP` alone selects the operation (spec/30_encoding.md R67). -/
theorem opField_encode_iff {i : Instr} (h : i.issuer = .host) :
    (i = .init ↔ opField (encode i) = 0#3) ∧ (i = .writeByte (dField (encode i)) ↔ opField (encode i) = 1#3) ∧
      (i = .readByte ↔ opField (encode i) = 2#3) ∧ (i = .available ↔ opField (encode i) = 3#3) := by
  cases i with
  | init | writeByte b | readByte | available => simp [encode]
  | rxByte r | txService => cases h

/-- Settles O8: a word that passes the first two checks is an encoding, and its `P` bit gives the issuer. -/
theorem hostStepChecksInOrder : Obligations.HostStepChecksInOrder := by
  intro s w hw
  split_ifs with hp hill hport huninit
  · exact takeTurn_of_faulted hp
  · exact takeTurn_of_illegalWord hw hill hp
  all_goals obtain ⟨i, rfl⟩ := illegalWord_eq_false_iff.1 (Bool.eq_false_iff.2 hill)
  · exact portViolationFaults .host s _ i hw (decode_encode i) (portBit_encode_eq_true_iff.1 hport).symm hp
  all_goals
    have hi : i.issuer = .host := not_not.1 fun hne => hport (portBit_encode_eq_true_iff.2 hne)
    have hturn : takeTurn .host s = exec i s := takeTurn_eq_exec hw (decode_encode i) hi
    obtain ⟨hinit, hwrite, hread, havail⟩ := opField_encode_iff hi
  · obtain ⟨hu, hop⟩ := huninit
    exact hturn.trans (exec_of_uninit hu hi fun h => hop (hinit.1 h))
  · obtain ⟨t, ht, hpc⟩ := exec_host_pc hp hi
    exact ⟨i, t, decode_encode i, hturn, ht, hinit, hwrite, hread, havail, hpc⟩

/-! ### WRITE_BYTE -/

theorem State.isFull_iff {s : State} {d : Fifo} : s.isFull d = true ↔ s.occ d = s.params.cap d := decide_eq_true_iff

theorem State.isFull_eq_false_iff {s : State} {d : Fifo} : s.isFull d = false ↔ s.occ d ≠ s.params.cap d :=
  decide_eq_false_iff_not

/-- A write into a full TX FIFO is dropped (R79). -/
theorem exec_writeByte_of_full {s : State} (hp : s.phase = .ready) (hfull : s.isFull .tx = true) (b : Byte) :
    exec (.writeByte b) s = .next s.advancePc := by
  rw [exec_of_ready hp (by simp), Instr.readyEffect, writeByteEffect_of_full hfull]

/-- A write into a TX FIFO that is not full is stored, published and armed (R79, R80). -/
theorem exec_writeByte_of_not_full {s : State} (hp : s.phase = .ready) (hfull : s.isFull .tx = false) (b : Byte) :
    exec (.writeByte b) s = .next ((s.enqueue .tx b).setTxie true).advancePc := by
  rw [exec_of_ready hp (by simp), Instr.readyEffect, writeByteEffect_of_not_full hfull]

/-- Settles O16: the two effects of `WRITE_BYTE` in `READY`, and the fault before `INIT`. -/
theorem writeByteMeaning : Obligations.WriteByteMeaning := by
  intro b s
  have hword : 0#1 ++ 1#3 ++ 0#4 = 0x10#8 := by decide
  refine ⟨congrArg (· ++ b) hword, fun hp => exec_of_uninit hp rfl (by simp), ?_, ?_⟩ <;> intro hp hfull
  · exact exec_writeByte_of_full hp (State.isFull_iff.2 hfull) b
  · exact exec_writeByte_of_not_full hp (State.isFull_eq_false_iff.2 hfull) b

/-- Settles O18: an accepted byte is one `enqueue`, and at the capacity the next write meets a full FIFO. -/
theorem acceptedWriteFillsTheFifo : Obligations.AcceptedWriteFillsTheFifo := by
  intro b c s t hp _ _ hroom ht
  rw [exec_writeByte_of_not_full hp (State.not_isFull_of_occ_lt hroom)] at ht
  obtain rfl := Host.Outcome.next.inj ht
  have hsame : SameFifo (s.enqueue .tx b) ((s.enqueue .tx b).setTxie true).advancePc .tx :=
    (State.setTxie_sameFifo _ true .tx).trans (State.advancePc_sameFifo _ .tx)
  have hocc := hsame.occ.trans (s.enqueue_occ_of_lt .tx b hroom)
  refine ⟨hocc, fun hlast => ?_⟩
  have hfull := State.isFull_iff.2 (hocc.trans hlast)
  have hready : ((s.enqueue .tx b).setTxie true).advancePc.phase = .ready := hp
  exact ⟨hfull, exec_writeByte_of_full hready hfull c⟩

/-! ### READ_BYTE -/

theorem readByteEffect_of_empty {s : State} (h : s.isEmpty .rx = true) : readByteEffect s = s.readOnEmpty := by
  simp [readByteEffect, h]

/-- A read of a non-empty RX FIFO returns its oldest byte, in overrun too (R82, R85). -/
theorem exec_readByte_of_not_empty {s : State} (hp : s.phase = .ready) (hne : s.isEmpty .rx = false) :
    exec .readByte s = .next ((s.advanceOut .rx).deliverResult (.byte (s.oldest .rx))).advancePc := by
  rw [exec_of_ready hp (by simp), Instr.readyEffect, readByteEffect_of_not_empty hne]

/-- A read of an empty RX FIFO answers by the underflow policy (R83, R84). -/
theorem exec_readByte_of_empty {s : State} (hp : s.phase = .ready) (hemp : s.isEmpty .rx = true) :
    exec .readByte s = .next s.readOnEmpty.advancePc := by
  rw [exec_of_ready hp (by simp), Instr.readyEffect, readByteEffect_of_empty hemp]

theorem State.readOnEmpty_of_sentinelZero {s : State} (h : s.params.rxUdf = .sentinelZero) :
    s.readOnEmpty = s.deliverResult (.byte 0x00) := by simp [State.readOnEmpty, h]

theorem State.readOnEmpty_of_stale {s : State} (h : s.params.rxUdf = .stale) : s.readOnEmpty = s.deliverDraw := by
  simp [State.readOnEmpty, h]

/-- Settles O19: the effect of `READ_BYTE` on a non-empty RX FIFO, and the fault before `INIT`. -/
theorem readByteReturnsOldest : Obligations.ReadByteReturnsOldest := by
  refine ⟨by decide, fun s => ⟨fun hp => exec_of_uninit hp rfl (by simp), fun hp hne => ?_⟩⟩
  exact exec_readByte_of_not_empty hp (decide_eq_false hne)

/-- Settles O20: the read on empty under `SENTINEL_ZERO`. -/
theorem readOnEmptyGivesSentinel : Obligations.ReadOnEmptyGivesSentinel := by
  intro s hp hemp hpolicy
  rw [exec_readByte_of_empty hp (decide_eq_true hemp), State.readOnEmpty_of_sentinelZero hpolicy]
  rfl

/-- Settles O21: the read on empty under `STALE` returns the next free byte. -/
theorem readOnEmptyStaleIsFree : Obligations.ReadOnEmptyStaleIsFree := by
  intro s hp hemp hpolicy
  refine ⟨Config.draw s.draws, ?_⟩
  rw [exec_readByte_of_empty hp (decide_eq_true hemp), State.readOnEmpty_of_stale hpolicy]
  rfl

/-- Reads in a row take the unread bytes from the oldest on, slot by slot (R85). -/
theorem runInstrs_readByte (n : Nat) {s : State} (hp : s.phase = .ready) (hi : s.inPtr .rx < 2 ^ s.params.w .rx)
    (ho : s.outPtr .rx < 2 ^ s.params.w .rx) (hn : n ≤ s.occ .rx) :
    ∃ t, runInstrs (List.replicate n .readByte) s = some t ∧
      t.results = s.results ++ (List.range n).map (fun j => Result.byte (s.cell .rx (s.unreadSlot .rx j))) ∧
      t.rxOut = addMod (s.params.w .rx) s.rxOut n ∧ t.occ .rx = s.occ .rx - n := by
  induction n generalizing s with
  | zero => exact ⟨s, rfl, (List.append_nil _).symm, (addMod_zero ho).symm, rfl⟩
  | succ n ih =>
    have hne : s.isEmpty .rx = false := Bool.eq_false_iff.2 fun hemp => by
      have := State.occ_of_isEmpty hemp
      omega
    have hread := exec_readByte_of_not_empty hp hne
    set u := ((s.advanceOut .rx).deliverResult (.byte (s.oldest .rx))).advancePc with hu
    have hsame : SameFifo (s.advanceOut .rx) u .rx :=
      (State.deliverResult_sameFifo _ _ .rx).trans (State.advancePc_sameFifo _ .rx)
    have hocc : u.occ .rx = s.occ .rx - 1 := hsame.occ.trans (State.advanceOut_occ hi ho hne)
    have hslot : ∀ j, u.unreadSlot .rx j = s.unreadSlot .rx (j + 1) := fun j =>
      (hsame.unreadSlot j).trans (s.advanceOut_unreadSlot .rx j)
    obtain ⟨t, hrun, hresults, hout, hleft⟩ := ih (s := u) hp hi (addMod_lt _ _ _) (by omega)
    refine ⟨t, (runInstrs_cons_of_next _ hread).trans hrun, ?_, ?_, by omega⟩
    · rw [hresults, List.range_succ_eq_map, List.map_cons, List.map_map, State.unreadSlot_zero]
      simp only [hslot]
      rw [hu]
      exact List.append_assoc _ _ _
    · rw [hout, Nat.add_comm n 1]
      exact addMod_addMod _ _ _ _

/-- Settles O23: reads in a row, with each slot written without the pointer's wrap. -/
theorem readsReturnSlotsInOrder : Obligations.ReadsReturnSlotsInOrder := by
  intro n s hp hi ho hn
  have hslot : ∀ j, s.unreadSlot .rx j = (s.rxOut + j) % 2 ^ s.params.kRx := s.unreadSlot_eq .rx
  have hreads := runInstrs_readByte n hp hi ho hn
  simp only [hslot] at hreads
  exact hreads

/-! ### AVAILABLE -/

/-- Settles O24: `AVAILABLE` counts the occupancy, which is the pointers' difference modulo `2^W_RX`. -/
theorem availableReturnsOccupancy : Obligations.AvailableReturnsOccupancy := by
  refine ⟨by decide, fun s => ⟨fun hp => exec_of_uninit hp rfl (by simp), fun hp => exec_of_ready hp (by simp),
    fun hi ho => ⟨subMod_eq_zero_iff hi ho, addMod_subMod hi ho⟩, s.occ_lt .rx⟩⟩

/-! ### PUTC -/

/-- Writes in a row without a `TX_SERVICE` between them: the TX FIFO keeps as many of the bytes as slots were free. -/
theorem Operating.runInstrs_writeByte (bs : List Byte) {s : State} (h : Operating s) :
    ∃ t, runInstrs (bs.map .writeByte) s = some t ∧
      t.unread .tx = s.unread .tx ++ bs.take (s.params.cap .tx - s.occ .tx) := by
  induction bs generalizing s with
  | nil => exact ⟨s, rfl, by simp⟩
  | cons b bs ih =>
    cases hfull : s.isFull .tx with
    | true =>
      have hsame := s.advancePc_sameFifo .tx
      have hfree : s.params.cap .tx - s.occ .tx = 0 := by rw [State.isFull_iff.1 hfull, Nat.sub_self]
      obtain ⟨t, hrun, hunread⟩ := ih (s := s.advancePc) ⟨h.inv.advancePc, h.ready⟩
      refine ⟨t, (runInstrs_cons_of_next _ (exec_writeByte_of_full h.ready hfull b)).trans hrun, ?_⟩
      rw [hunread, hsame.unread, hsame.occ, hsame.params, hfree, List.take_zero, List.take_zero]
    | false =>
      have hroom := h.readyInv.occ_tx_lt hfull
      obtain ⟨u, hu, hstored⟩ := h.writeByte hroom b
      have hfree : s.params.cap .tx - s.occ .tx = (u.params.cap .tx - u.occ .tx) + 1 := by
        rw [hstored.params, hstored.occ, List.length_singleton]
        omega
      obtain ⟨t, hrun, hunread⟩ := ih hstored.operating
      refine ⟨t, (runInstrs_cons_of_next _ hu).trans hrun, ?_⟩
      rw [hunread, hstored.unread, hfree, List.take_succ_cons, List.append_assoc, List.singleton_append]

/-- Settles O58: of the two bytes of a linefeed the FIFO keeps as many as slots were free. -/
theorem putcOfLinefeedMayBePartial : Obligations.PutcOfLinefeedMayBePartial := by
  intro s hs hp
  have hop : Operating s := ⟨hs, hp⟩
  obtain ⟨t, hrun, hunread⟩ := hop.runInstrs_writeByte [carriageReturn, lineFeed]
  refine ⟨t, hrun, hunread.trans (congrArg _ ?_)⟩
  have hbound := hop.readyInv.txBound
  split_ifs with htwo hone
  · exact List.take_of_length_le (Nat.le_sub_of_add_le' htwo)
  · rw [show s.params.cap .tx - s.occ .tx = 1 by omega]
    rfl
  · rw [show s.params.cap .tx - s.occ .tx = 0 by omega]
    rfl

end Sys2Proof.Machine
end

section
/-! The device port: when each event is enabled and what it does, and the TX controller (spec/41_device_port.md R93 to
R104). -/

namespace Sys2Proof.Machine

/-! ### The interrupt signals -/

/-- An operation answers a next state exactly where it is enabled (R13). -/
theorem exec_steps_iff_enabledIn {i : Instr} {s : State} : (∃ t, exec i s = .next t) ↔ Instr.EnabledIn i s := by
  refine ⟨fun ⟨t, ht⟩ => ?_, exec_steps_of_enabledIn⟩
  by_contra hn
  simp [exec_of_not_enabledIn hn] at ht

/-- Settles O55: with its UART condition up, each signal is the enabling condition of its event. -/
theorem interruptSignalsMatchEvents : Obligations.InterruptSignalsMatchEvents := by
  intro s
  refine ⟨?_, fun r => ?_, by simp [State.irqTx], by simp [State.irqRx]⟩
  · rw [exec_steps_iff_enabledIn]
    simp [State.irqTx, Instr.EnabledIn, Instr.issuer]
  · rw [exec_steps_iff_enabledIn]
    simp [State.irqRx, Instr.EnabledIn, Instr.issuer]

/-! ### RX_BYTE -/

theorem State.dropsNewest_iff {s : State} :
    s.dropsNewest = true ↔ s.params.rxOvf = .dropNewest ∧ s.occ .rx = s.params.cap .rx := by
  simp [State.dropsNewest, State.isFull]

theorem exec_rxByte_of_ready {s : State} (hp : s.phase = .ready) (r : Byte) :
    exec (.rxByte r) s = .next (rxByteEffect r s) :=
  exec_of_ready hp (by simp)

/-- Settles O26: the two effects of `RX_BYTE` in `READY`, and no step outside it. -/
theorem rxByteMeaning : Obligations.RxByteMeaning := by
  intro r s
  have hword : 1#1 ++ 0#3 ++ 0#4 = 0x80#8 := by decide
  refine ⟨congrArg (· ++ r) hword, exec_of_not_enabledIn (i := .rxByte r), fun hp hpolicy hfull => ?_,
    fun hp hkeep => ?_⟩
  · rw [exec_rxByte_of_ready hp, rxByteEffect_of_drop (State.dropsNewest_iff.2 ⟨hpolicy, hfull⟩)]
  · have hstore : s.dropsNewest = false := Bool.eq_false_iff.2 (mt State.dropsNewest_iff.1 hkeep)
    rw [exec_rxByte_of_ready hp, rxByteEffect_of_store hstore]
    rfl

/-- Unread bytes a whole capacity apart share their slot (spec/20_memory.md R44). -/
theorem State.unreadSlot_add_cap (s : State) (d : Fifo) (j : Nat) :
    s.unreadSlot d (j + s.params.cap d) = s.unreadSlot d j := by
  rw [State.unreadSlot_eq, State.unreadSlot_eq, ← Nat.add_assoc]
  exact Nat.add_mod_right _ _

/-- At or past full the producer's slot is the one of the unread byte a capacity back (R97). -/
theorem State.inSlot_of_cap_le {s : State} {d : Fifo} (hi : s.inPtr d < 2 ^ s.params.w d)
    (ho : s.outPtr d < 2 ^ s.params.w d) (hfull : s.params.cap d ≤ s.occ d) :
    s.inSlot d = s.unreadSlot d (s.occ d - s.params.cap d) := by
  rw [← State.unreadSlot_add_cap, Nat.sub_add_cancel hfull, State.unreadSlot_occ hi ho]

/-- Settles O28: the byte is stored whatever the occupancy, and its slot is found a capacity back. -/
theorem overwriteLosesUnreadBytes : Obligations.OverwriteLosesUnreadBytes := by
  intro r s hp hpolicy hi ho
  refine ⟨_, exec_rxByte_of_overwrite hp hpolicy r, s.enqueue_outPtr .rx .rx r, by simp [State.enqueue_cell],
    s.enqueue_occ .rx r, fun hfull => ?_, fun hfull => ?_⟩
  · have hcap := Params.cap_pos s.params .rx
    exact ⟨s.occ .rx - s.params.cap .rx, by omega, State.inSlot_of_cap_le (d := .rx) hi ho hfull⟩
  · rw [State.inSlot_of_cap_le (d := .rx) hi ho hfull.ge, hfull, Nat.sub_self, State.unreadSlot_zero]

/-! ### TX_SERVICE -/

/-- On an empty TX FIFO the event does nothing but disarm (R100). -/
theorem txServiceEffect_of_empty {s : State} (h : s.isEmpty .tx = true) : txServiceEffect s = s.setTxie false := by
  simp [txServiceEffect, State.drainOne, State.disarmIfEmpty, h]

/-- On a non-empty TX FIFO the oldest byte leaves, and the interrupt stays armed while a byte is left (R99). -/
theorem txServiceEffect_of_not_empty {s : State} (harmed : s.txie = true) (hne : s.isEmpty .tx = false) :
    txServiceEffect s =
      ((s.advanceOut .tx).emit (s.oldest .tx)).setTxie (!(s.advanceOut .tx).isEmpty .tx) := by
  have hdrain : s.drainOne = (s.advanceOut .tx).emit (s.oldest .tx) := by simp [State.drainOne, hne]
  have hemp : s.drainOne.isEmpty .tx = (s.advanceOut .tx).isEmpty .tx := by
    rw [hdrain]
    exact ((s.advanceOut .tx).emit_sameFifo _ .tx).isEmpty
  rw [txServiceEffect, State.disarmIfEmpty, hemp, hdrain]
  cases (s.advanceOut .tx).isEmpty .tx with
  | true => rfl
  | false => simp [State.setTxie, State.emit, State.advanceOut, harmed]

theorem exec_txService_of_armed {s : State} (hp : s.phase = .ready) (harmed : s.txie = true) :
    exec .txService s = .next (txServiceEffect s) :=
  (exec_next_of_ready hp).2 ⟨fun _ => harmed, rfl⟩

theorem exec_txService_of_disarmed {s : State} (h : s.txie = false) :
    exec .txService s = .fault (.notEnabled .txi) :=
  exec_of_not_enabledIn (i := .txService) fun ⟨_, harmed⟩ => by simp [h] at harmed

/-- Settles O30: the two effects of `TX_SERVICE`, and no step where it is not armed. -/
theorem txServiceMeaning : Obligations.TxServiceMeaning := by
  refine ⟨by decide, fun s => ⟨fun h => ?_, fun hp harmed hne => ?_, fun hp harmed hemp => ?_⟩⟩
  · rcases h with hp | hoff
    · exact exec_of_not_enabledIn (i := .txService) fun henabled => hp henabled.1
    · exact exec_txService_of_disarmed hoff
  · rw [exec_txService_of_armed hp harmed, txServiceEffect_of_not_empty harmed (decide_eq_false hne)]
    simp only [State.isEmpty, ← decide_not]
    rfl
  · rw [exec_txService_of_armed hp harmed, txServiceEffect_of_empty (decide_eq_true hemp)]
    rfl

/-- Settles O31: the effect on an empty TX FIFO, and the invariant of every reachable state. -/
theorem txServiceOnEmptyDisarms : Obligations.TxServiceOnEmptyDisarms := by
  refine ⟨fun s hp harmed hemp => ?_, fun s hs hp ⟨harmed, hemp⟩ => ?_⟩
  · rw [exec_txService_of_armed hp harmed, txServiceEffect_of_empty hemp]
    exact ⟨_, rfl, rfl, rfl⟩
  · have hne := (hs.blockInv.ready hp).txie_iff.1 harmed
    simp [hemp] at hne

theorem State.txState_eq_transmitting_iff {s : State} : s.txState = .transmitting ↔ s.txie = true := by
  cases h : s.txie <;> simp [State.txState, h]

/-- The line is `TX_SERVICE`'s alone, before `INIT` too (R30, R34). -/
theorem eq_txService_of_txline_ne {i : Instr} {s t : State} (h : exec i s = .next t) (hne : t.txline ≠ s.txline) :
    i = .txService := by
  rcases exec_writtenByOwner h with howner | ⟨_, _, rfl⟩
  · exact howner.txline hne
  · exact absurd rfl hne

/-- Settles O32: only `TX_SERVICE` moves the line, and `tx_out` after `INIT`, and it is enabled only while armed. -/
theorem bytesLeaveOnlyWhileTransmitting : Obligations.BytesLeaveOnlyWhileTransmitting := by
  refine ⟨fun s => exec_txService_of_disarmed, fun u s t hturn hmoved => ?_⟩
  rcases takeTurn_cases hturn with ⟨c, _, _, _, rfl⟩ | ⟨i, _, _, he⟩
  · simp at hmoved
  · have hserve : i = .txService := by
      rcases hmoved with hline | ⟨hp, hout⟩
      · exact eq_txService_of_txline_ne he hline
      · exact (exec_writtenByOwner_of_ready he hp).txOut hout
    subst hserve
    exact State.txState_eq_transmitting_iff.2 (execTxService_next.1 he).2.1

/-! ### One byte for each event -/

/-- `TX_SERVICE` emits the oldest byte, or nothing. -/
theorem txServiceEffect_txline {s : State} (harmed : s.txie = true) : (txServiceEffect s).txline =
    if s.isEmpty .tx then s.txline else s.txline ++ [s.oldest .tx] := by
  cases hemp : s.isEmpty .tx with
  | true => simp [txServiceEffect_of_empty hemp]
  | false => simp [txServiceEffect_of_not_empty harmed hemp]

/-- Settles O33: the line of `TX_SERVICE`, the cells of `RX_BYTE`, and the frame of each for the rest. -/
theorem oneByteEachEvent : Obligations.OneByteEachEvent := by
  refine ⟨fun s t he => ⟨?_, (txServiceFrame s t he).1⟩, fun r s t he => ?_⟩
  · obtain ⟨_, harmed, rfl⟩ : s.phase = .ready ∧ s.txie = true ∧ t = txServiceEffect s :=
      execTxService_next.1 he
    rw [txServiceEffect_txline harmed]
    split_ifs
    · exact .inl rfl
    · exact .inr rfl
  · obtain ⟨_, rfl⟩ : s.phase = .ready ∧ t = rxByteEffect r s := execRxByte_next.1 he
    refine ⟨?_, fun d a hother => ?_⟩
    · obtain ⟨m, n, heq⟩ := rxByteEffect_eq r s
      rw [heq]
    · rw [rxByteEffect_cell, if_neg]
      rintro ⟨_, rfl, rfl⟩
      exact hother rfl

/-! ### The TX controller -/

/-- A disarmed controller has an empty TX FIFO, and so all its slots free (spec/10_state.md R37). -/
theorem ReadyInv.occ_tx_of_disarmed {s : State} (h : ReadyInv s) (hoff : s.txie = false) : s.occ .tx = 0 := by
  refine Nat.eq_zero_of_not_pos fun hpos => ?_
  simp [h.armed.2 hpos] at hoff

/-- While transmitting, `TX_SERVICE` emits the oldest byte and stays armed if it was not the last. -/
theorem Operating.exec_txService {s : State} (h : Operating s) (harmed : s.txie = true) :
    ∃ t, exec .txService s = .next t ∧ t.txie = decide (1 < s.occ .tx) ∧
      t.txline = s.txline ++ [s.oldest .tx] ∧ t.txOut = (s.txOut + 1) % 2 ^ s.params.w .tx := by
  have hne := h.readyInv.txie_iff.1 harmed
  have htx := h.readyInv.tx
  have hemp := State.isEmpty_iff (htx.advanceOut hne).inRange (htx.advanceOut hne).outRange
  rw [State.advanceOut_occ htx.inRange htx.outRange hne] at hemp
  refine ⟨_, exec_txService_of_armed h.ready harmed, ?_⟩
  rw [txServiceEffect_of_not_empty harmed hne]
  refine ⟨?_, rfl, rfl⟩
  rw [State.setTxie_txie, Bool.eq_iff_iff, Bool.not_eq_true', Bool.eq_false_iff, ne_eq, hemp, decide_eq_true_eq]
  omega

/-- Settles O35: one effect for each row of the table, and `txie` has no other writers. -/
theorem txControllerTransitions : Obligations.TxControllerTransitions := by
  intro s hs hp
  have hop : Operating s := ⟨hs, hp⟩
  simp only [State.txState_eq_idle_iff, State.txState_eq_transmitting_iff]
  refine ⟨fun hoff => ⟨?_, exec_txService_of_disarmed hoff⟩, fun b hroom => ?_, fun b _ hfull => ?_,
    fun harmed hmany => ?_, fun harmed hone => ?_, fun i t hwrite hserve he => ?_, fun u t hu he => ?_⟩
  · rw [hop.readyInv.occ_tx_of_disarmed hoff]
    exact Params.cap_pos _ _
  · refine ⟨_, exec_writeByte_of_not_full hp (State.not_isFull_of_occ_lt hroom) b, rfl, ?_, rfl⟩
    rw [(State.advancePc_sameFifo _ .tx).cell, (State.setTxie_sameFifo _ true .tx).cell, State.enqueue_cell]
    simp
  · exact exec_writeByte_of_full hp (State.isFull_iff.2 hfull) b
  · simpa [hmany] using hop.exec_txService harmed
  · simpa [hone] using hop.exec_txService harmed
  · have hkeep : t.txie = s.txie := by
      by_contra hne
      rcases (exec_writtenByOwner_of_ready he hp).txie hne with ⟨b, hb, _⟩ | ⟨hi, _⟩
      · exact hwrite b hb
      · exact hserve hi
    rw [State.txState, State.txState, hkeep]
  · obtain ⟨_, rfl⟩ := ((exec_next_of_uninit hu).1 he).resolve_right fun h => h.1 rfl
    rfl

end Sys2Proof.Machine
end

section
/-! Progress of the TX side (spec/41_device_port.md R106, R108): a FIFO filled past its capacity and then drained, and
weakly fair executions. -/

namespace Sys2Proof.Machine

/-! ### One write more than the capacity -/

/-- A list of operations in two parts. -/
theorem runInstrs_append (is js : List Instr) (s : State) :
    runInstrs (is ++ js) s = (runInstrs is s).bind (runInstrs js) := by
  induction is generalizing s with
  | nil => rfl
  | cons i is ih =>
    simp only [List.cons_append, runInstrs]
    cases exec i s <;> simp [ih]

/-- From an empty TX FIFO, one write more than the capacity leaves the FIFO full of all the bytes but the last. -/
theorem Operating.runInstrs_writeByte_past_full {s : State} (h : Operating s) (hemp : s.isEmpty .tx = true)
    {bs : List Byte} (hlen : bs.length = s.params.cap .tx) (b : Byte) :
    ∃ u, runInstrs ((bs ++ [b]).map .writeByte) s = some u ∧ Stored .tx State.txline s u bs := by
  have hocc := State.occ_of_isEmpty hemp
  obtain ⟨v, hv, hfilled⟩ := runInstrs_stored Operating.writeByte bs h (by omega)
  have hfull : v.isFull .tx = true := State.isFull_iff.2 (by rw [hfilled.occ, hfilled.params]; omega)
  have hdropped := exec_writeByte_of_full hfilled.operating.ready hfull b
  refine ⟨v.advancePc, ?_, ⟨hfilled.operating.inv.advancePc, hfilled.operating.ready⟩, hfilled.params, ?_,
    hfilled.trace⟩
  · rw [List.map_append, runInstrs_append, hv]
    exact runInstrs_cons_of_next [] hdropped
  · rw [(v.advancePc_sameFifo .tx).unread, hfilled.unread]

/-- `TX_SERVICE` as often as there are unread bytes puts them all on the line and leaves the controller idle. -/
theorem Operating.runInstrs_txService {s : State} (h : Operating s) :
    ∃ t, runInstrs (List.replicate (s.occ .tx) .txService) s = some t ∧
      t.txline = s.txline ++ s.unread .tx ∧ t.isEmpty .tx = true ∧ t.txie = false := by
  obtain ⟨t, ht, hdrained⟩ := runInstrs_consumed Operating.txService h rfl
  have hinv := hdrained.operating.readyInv
  have hnil : t.unread .tx = [] := List.self_eq_append_right.1 hdrained.unread
  have hemp := hinv.tx.isEmpty_of_unread_eq_nil hnil
  rw [State.unread_length] at ht
  refine ⟨t, ht, by simpa using hdrained.trace, hemp, Bool.eq_false_iff.2 fun harmed => ?_⟩
  simp [hinv.txie_iff.1 harmed] at hemp

/-- Settles O52: the writes fill the FIFO with all the bytes but the last, and the services empty it. -/
theorem capacityPlusOneWrites : Obligations.CapacityPlusOneWrites := by
  intro bs s hs hp hemp hlen
  have hop : Operating s := ⟨hs, hp⟩
  obtain ⟨cs, b, rfl⟩ := (List.eq_nil_or_concat' bs).resolve_left (by rintro rfl; simp at hlen)
  have hcs : cs.length = s.params.cap .tx := by simpa using hlen
  obtain ⟨u, hu, hfilled⟩ := hop.runInstrs_writeByte_past_full hemp hcs b
  have hempty := State.occ_of_isEmpty hemp
  have hocc : u.occ .tx = s.params.cap .tx := by rw [hfilled.occ, hempty, hcs, Nat.zero_add]
  have hunread : u.unread .tx = cs := by rw [hfilled.unread, State.unread_eq_nil hempty, List.nil_append]
  obtain ⟨t, ht, hline, hdone, hoff⟩ := hfilled.operating.runInstrs_txService
  rw [hocc] at ht
  refine ⟨u, t, hu, hocc, ht, ?_, State.txState_eq_idle_iff.2 hoff, of_decide_eq_true hdone,
    exec_txService_of_disarmed hoff⟩
  rw [hline, hfilled.trace, hunread, ← hcs, List.take_left]

/-! ### Weakly fair executions -/

/-- The bytes on the line and then those still unread: what R52 says only grows. -/
def State.txStream (s : State) : List Byte := s.txline ++ s.unread .tx

theorem State.txline_isPrefix_txStream (s : State) : s.txline <+: s.txStream := List.prefix_append _ _

/-- One turn appends to the stream. -/
theorem Operating.txStream_isPrefix {u : Turn} {s v : State} (h : Operating s) (ht : takeTurn u s = .next v) :
    s.txStream <+: v.txStream := by
  have hinit : Initialised s := ⟨h.inv, by simp [h.ready]⟩
  exact ⟨s.acceptedTx u, (hinit.txStream_takeTurn ht).symm⟩

/-- A disarmed controller has nothing left to emit. -/
theorem Operating.txStream_of_disarmed {s : State} (h : Operating s) (hoff : s.txie = false) :
    s.txStream = s.txline := by
  rw [State.txStream, State.unread_eq_nil (h.readyInv.occ_tx_of_disarmed hoff), List.append_nil]

/-- A turn that issues `TX_SERVICE` puts one byte on the line. -/
theorem Operating.txline_of_isTxService {u : Turn} {s v : State} (h : Operating s) (ht : takeTurn u s = .next v)
    (hserve : isTxService u s) : v.txline.length = s.txline.length + 1 := by
  obtain ⟨hagent, hword⟩ := hserve
  rw [takeTurn_eq_exec hword (decode_encode _) hagent.symm] at ht
  obtain ⟨harmed, rfl⟩ := (exec_next_of_ready h.ready).1 ht
  obtain ⟨_, hline⟩ := unread_txServiceEffect h.readyInv (harmed rfl)
  simp [Instr.readyEffect, hline]

/-- No turn takes a byte off the line. -/
theorem Operating.txline_length_le {u : Turn} {s v : State} (h : Operating s) (ht : takeTurn u s = .next v) :
    s.txline.length ≤ v.txline.length := by
  rcases takeTurn_of_ready h.ready ht with ⟨c, _, rfl⟩ | ⟨i, _, harmed, rfl⟩
  · exact le_rfl
  · by_cases hserve : i = .txService
    · subst hserve
      obtain ⟨_, hline⟩ := unread_txServiceEffect h.readyInv (harmed rfl)
      simp [Instr.readyEffect, hline]
    · rw [Instr.readyEffect_txline s hserve]

section

variable {turns : Nat → Turn} {states : Nat → State} {n m : Nat}

/-- An execution never ends, so from a `READY` state on it stays in `READY` (spec/60_exceptions.md R117). -/
theorem Execution.operating (h : Execution turns states) (hn : Operating (states n)) (hm : n ≤ m) :
    Operating (states m) := by
  have hinit : Initialised (states m) := by
    induction m, hm using Nat.le_induction with
    | base => exact ⟨hn.inv, by simp [hn.ready]⟩
    | succ m _ ih => exact ih.takeTurn (h m)
  exact ⟨hinit.inv, hinit.ready_of_takeTurn (h m)⟩

theorem Execution.txStream_isPrefix (h : Execution turns states) (hn : Operating (states n)) (hm : n ≤ m) :
    (states n).txStream <+: (states m).txStream := by
  induction m, hm using Nat.le_induction with
  | base => exact List.prefix_rfl
  | succ m hm ih => exact ih.trans ((h.operating hn hm).txStream_isPrefix (h m))

theorem Execution.txline_length_le (h : Execution turns states) (hn : Operating (states n)) (hm : n ≤ m) :
    (states n).txline.length ≤ (states m).txline.length := by
  induction m, hm using Nat.le_induction with
  | base => exact le_rfl
  | succ m hm ih => exact ih.trans ((h.operating hn hm).txline_length_le (h m))

/-- With `TX_SERVICE` taken again and again, the line grows beyond every length. -/
theorem Execution.txline_unbounded (h : Execution turns states) (hn : Operating (states n))
    (hserve : ∀ k, ∃ m, k ≤ m ∧ isTxService (turns m) (states m)) (len : Nat) :
    ∃ m, n ≤ m ∧ len ≤ (states m).txline.length := by
  induction len with
  | zero => exact ⟨n, le_rfl, Nat.zero_le _⟩
  | succ len ih =>
    obtain ⟨k, hnk, hlen⟩ := ih
    obtain ⟨m, hkm, hm⟩ := hserve k
    have hgrown := (h.operating hn (hnk.trans hkm)).txline_of_isTxService (h m) hm
    have hkept := h.txline_length_le (h.operating hn hnk) hkm
    exact ⟨m + 1, by omega, by omega⟩

end

/-- Settles O53: either the controller is disarmed at some later point, and then all is on the line; or it stays armed,
fairness makes the line outgrow the stream of the given point, and both are the beginning of the later stream. -/
theorem acceptedBytesAreEventuallyEmitted : Obligations.AcceptedBytesAreEventuallyEmitted := by
  intro turns states hexec hfair n hinv hp
  have hn : Operating (states n) := ⟨hinv, hp⟩
  by_cases hidle : ∃ m, n ≤ m ∧ (states m).txie = false
  · obtain ⟨m, hm, hoff⟩ := hidle
    refine ⟨m, hm, ?_⟩
    rw [← (hexec.operating hn hm).txStream_of_disarmed hoff]
    exact hexec.txStream_isPrefix hn hm
  · have harmed : ∀ m, n ≤ m → (states m).phase = .ready ∧ (states m).txie = true := fun m hm =>
      ⟨(hexec.operating hn hm).ready, Bool.of_not_eq_false fun hoff => hidle ⟨m, hm, hoff⟩⟩
    obtain ⟨m, hm, hlen⟩ := hexec.txline_unbounded hn (hfair ⟨n, harmed⟩) (states n).txStream.length
    have hstream := hexec.txStream_isPrefix hn hm
    exact ⟨m, hm, List.prefix_of_prefix_length_le hstream (State.txline_isPrefix_txStream _) hlen⟩

end Sys2Proof.Machine
end

section
/-! Faults (spec/60_exceptions.md): the state `FAULTED` has no step, fault entry is precise, a device agent's own event
raises no fault and leaves the host alone, and the two device events commute. -/

namespace Sys2Proof.Machine

/-! ### The state `FAULTED` -/

/-- A turn that answers a next state was not taken in `FAULTED` (R117). -/
theorem phase_ne_faulted_of_takeTurn {u : Turn} {s t : State} (h : takeTurn u s = .next t) : s.phase ≠ .faulted :=
  (takeTurn_next.1 h).1

/-- The step takes a turn in the same phase, so it answers no next state in `FAULTED` either (R117). -/
theorem phase_ne_faulted_of_step {s t : State} (h : step s = .next t) : s.phase ≠ .faulted := by
  obtain ⟨u, s', hnext, hturn⟩ := step_next.1 h
  obtain ⟨l, n, rfl⟩ := State.nextTurn_state hnext
  have hp : { s with agenda := l, draws := n }.phase ≠ .faulted := phase_ne_faulted_of_takeTurn hturn
  exact hp

/-- No agent may be scheduled in `FAULTED`. -/
theorem State.enabled_of_faulted {s : State} (h : s.phase = .faulted) (a : Agent) : s.enabled a = false := by
  cases a <;> simp [State.enabled, h]

/-- Settles O7: every way to a next state, and a successful end, is outside `FAULTED`. -/
theorem faultedBlockHasNoStep : Obligations.FaultedBlockHasNoStep := by
  intro s hp
  refine ⟨fun u => takeTurn_of_faulted hp, fun i => exec_of_faulted hp, State.enabled_of_faulted hp,
    fun t h => phase_ne_faulted_of_step h hp, fun ⟨hready, _, _⟩ => ?_, fun hinv => hinv.fault.1 hp⟩
  simp [hp] at hready

/-! ### Fault entry -/

/-- In `READY` only a second `INIT` changes the phase (R112, R116). -/
theorem Instr.readyEffect_phase {i : Instr} (hi : i ≠ .init) (s : State) :
    (Instr.readyEffect i s).phase = s.phase := by
  cases i with
  | init => exact absurd rfl hi
  | writeByte b =>
    obtain ⟨m, n, x, _, heq⟩ := writeByteEffect_eq b s
    rw [Instr.readyEffect, heq]
    rfl
  | readByte =>
    obtain ⟨v, n, k, _, heq⟩ := readByteEffect_eq s
    rw [Instr.readyEffect, heq]
    rfl
  | available => rfl
  | rxByte r =>
    obtain ⟨m, n, heq⟩ := rxByteEffect_eq r s
    rw [Instr.readyEffect, heq]
  | txService =>
    obtain ⟨n, l, x, _, heq⟩ := txServiceEffect_eq s
    rw [Instr.readyEffect, heq]

/-- An operation that leads to `FAULTED` does nothing but enter the fault (R111). -/
theorem exec_into_faulted {i : Instr} {s t : State} (h : exec i s = .next t) (ht : t.phase = .faulted) :
    ∃ c, c ≠ .noFault ∧ t = s.raiseFault c := by
  rcases exec_next_cases h with ⟨hp, rfl⟩ | ⟨_, _, rfl⟩ | ⟨_, _, rfl⟩
  · by_cases hi : i = .init
    · subst hi
      exact ⟨.reinit, by decide, rfl⟩
    · simp [Instr.readyEffect_phase hi, hp] at ht
  · simp at ht
  · exact ⟨.uninit, by decide, rfl⟩

/-- Settles O9: the word's own faults are fault entries, and so are those of the operation it selects. -/
theorem faultsArePreciseAndFinal : Obligations.FaultsArePreciseAndFinal := by
  refine ⟨fun s c => rfl, fun u s t h ht => ⟨phase_ne_faulted_of_takeTurn h, ?_⟩,
    fun u s t hp h => phase_ne_faulted_of_takeTurn h hp⟩
  rcases takeTurn_cases h with ⟨c, hc, _, _, heq⟩ | ⟨i, _, _, he⟩
  · exact ⟨c, hc, heq⟩
  · exact exec_into_faulted he ht

/-- Settles O11: the fault of a host operation that meets `UNINIT`. -/
theorem operationsBeforeInitFault : Obligations.OperationsBeforeInitFault := fun _ _ => exec_of_uninit

/-- Settles O12: what `INIT` does in `READY` is the fault entry. -/
theorem secondInitFaults : Obligations.SecondInitFaults := fun _ hp => exec_of_ready (i := .init) hp (by simp)

/-! ### The device agents' own events -/

/-- The words of an own event of `RXI` are the encodings of `RX_BYTE` (spec/30_encoding.md R68). -/
theorem eq_encode_rxByte {w : OpWord} (hp : portBit w = true) (ho : opField w = 0#3) (hr : rsvField w = 0#4) :
    w = encode (.rxByte (dField w)) :=
  eq_of_fields hr (rsvField_encode _) (by simp [encode, hp]) (by simp [encode, ho]) (by simp [encode])

/-- An own event of a device agent is an operation of its own role (R125). -/
theorem Turn.wordOf_of_ownEvent {u : Turn} (h : u.ownEvent = true) (s : State) :
    ∃ i, s.wordOf u = some (encode i) ∧ i.issuer = u.agent ∧ i.issuer ≠ .host := by
  cases u with
  | host => cases h
  | rxi w =>
    obtain ⟨hport, hop, hrsv⟩ := of_decide_eq_true h
    exact ⟨.rxByte (dField w), congrArg some (eq_encode_rxByte hport hop hrsv), rfl, by simp [Instr.issuer]⟩
  | txi w => exact ⟨.txService, congrArg some (of_decide_eq_true h), rfl, by decide⟩

/-- A device event raises no fault, and leaves the position, the program and the results of `HOST` (R116, R121). -/
theorem exec_device_frame {i : Instr} {s t : State} (hi : i.issuer ≠ .host) (h : exec i s = .next t) :
    t.phase = s.phase ∧ t.faultCode = s.faultCode ∧ t.pc = s.pc ∧ t.program = s.program ∧ t.results = s.results := by
  cases i with
  | init | writeByte b | readByte | available => exact absurd rfl hi
  | rxByte r =>
    obtain ⟨_, rfl⟩ : s.phase = .ready ∧ t = rxByteEffect r s := execRxByte_next.1 h
    obtain ⟨m, n, heq⟩ := rxByteEffect_eq r s
    simp [heq]
  | txService =>
    obtain ⟨_, _, rfl⟩ : s.phase = .ready ∧ s.txie = true ∧ t = txServiceEffect s := execTxService_next.1 h
    obtain ⟨n, l, x, _, heq⟩ := txServiceEffect_eq s
    simp [heq]

/-- Settles O10: the turn is its device event, whose frame holds the host's registers. -/
theorem deviceEventsRaiseNoFault : Obligations.DeviceEventsRaiseNoFault := by
  intro u s t hown hturn
  obtain ⟨i, hword, hagent, hdevice⟩ := Turn.wordOf_of_ownEvent hown s
  rw [takeTurn_eq_exec hword (decode_encode i) hagent] at hturn
  exact exec_device_frame hdevice hturn

/-! ### The two device events commute -/

/-- `s` with the fields that `RX_BYTE` writes replaced (`rxByteEffect_eq`). -/
def State.withRxInput (s : State) (m : Memory) (n : Nat) : State := { s with rxBuf := m, rxIn := n }

/-- `s` with the fields that `TX_SERVICE` writes replaced (`txServiceEffect_eq`). -/
def State.withTxOutput (s : State) (n : Nat) (l : List Byte) (x : Bool) : State :=
  { s with txOut := n, txline := l, txie := x }

/-- `RX_BYTE` reads nothing that `TX_SERVICE` writes (R123). -/
theorem rxByteEffect_withTxOutput (r : Byte) (s : State) (n : Nat) (l : List Byte) (x : Bool) :
    rxByteEffect r (s.withTxOutput n l x) = (rxByteEffect r s).withTxOutput n l x := by
  have hdrop : (s.withTxOutput n l x).dropsNewest = s.dropsNewest := rfl
  unfold rxByteEffect
  rw [hdrop]
  split_ifs <;> rfl

theorem State.drainOne_withRxInput (s : State) (m : Memory) (n : Nat) :
    (s.withRxInput m n).drainOne = s.drainOne.withRxInput m n := by
  have hempty : (s.withRxInput m n).isEmpty .tx = s.isEmpty .tx := rfl
  unfold State.drainOne
  rw [hempty]
  split_ifs <;> rfl

theorem State.disarmIfEmpty_withRxInput (s : State) (m : Memory) (n : Nat) :
    (s.withRxInput m n).disarmIfEmpty = s.disarmIfEmpty.withRxInput m n := by
  have hempty : (s.withRxInput m n).isEmpty .tx = s.isEmpty .tx := rfl
  unfold State.disarmIfEmpty
  rw [hempty]
  split_ifs <;> rfl

/-- `TX_SERVICE` reads nothing that `RX_BYTE` writes (R123). -/
theorem txServiceEffect_withRxInput (s : State) (m : Memory) (n : Nat) :
    txServiceEffect (s.withRxInput m n) = (txServiceEffect s).withRxInput m n := by
  simp only [txServiceEffect, State.drainOne_withRxInput, State.disarmIfEmpty_withRxInput]

/-- Neither event reads what the other writes, and they write different fields. -/
theorem txServiceEffect_rxByteEffect (r : Byte) (s : State) :
    txServiceEffect (rxByteEffect r s) = rxByteEffect r (txServiceEffect s) := by
  obtain ⟨m, k, hrx⟩ : ∃ m k, rxByteEffect r s = s.withRxInput m k := rxByteEffect_eq r s
  obtain ⟨n, l, x, _, htx⟩ : ∃ n l x, (x = s.txie ∨ x = false) ∧ txServiceEffect s = s.withTxOutput n l x :=
    txServiceEffect_eq s
  calc txServiceEffect (rxByteEffect r s)
    _ = (s.withTxOutput n l x).withRxInput m k := by rw [hrx, txServiceEffect_withRxInput, htx]
    _ = (s.withRxInput m k).withTxOutput n l x := rfl
    _ = rxByteEffect r (txServiceEffect s) := by rw [htx, rxByteEffect_withTxOutput, hrx]

/-- `RX_BYTE` leaves `txie`, so it neither arms nor disarms `TX_SERVICE`. -/
theorem rxByteEffect_txie (r : Byte) (s : State) : (rxByteEffect r s).txie = s.txie := by
  obtain ⟨m, n, heq⟩ := rxByteEffect_eq r s
  rw [heq]

/-- Settles O54: each event stays enabled after the other, and their effects commute. -/
theorem deviceEventsCommute : Obligations.DeviceEventsCommute := by
  intro r s a b hrx htx
  obtain ⟨hp, rfl⟩ : s.phase = .ready ∧ a = rxByteEffect r s := execRxByte_next.1 hrx
  obtain ⟨_, harmed, rfl⟩ : s.phase = .ready ∧ s.txie = true ∧ b = txServiceEffect s := execTxService_next.1 htx
  have hpa : (rxByteEffect r s).phase = .ready := (Instr.readyEffect_phase (i := .rxByte r) (by simp) s).trans hp
  have hpb : (txServiceEffect s).phase = .ready := (Instr.readyEffect_phase (i := .txService) (by simp) s).trans hp
  refine ⟨_, exec_txService_of_armed hpa ((rxByteEffect_txie r s).trans harmed), ?_⟩
  rw [exec_rxByte_of_ready hpb, txServiceEffect_rxByteEffect]

end Sys2Proof.Machine
end

section
/-! Reset and the end of a run (spec/70_reset_and_hazards.md): how `UNINIT` is left for good, and what can still step
after a successful end. -/

namespace Sys2Proof.Machine

/-! ### Leaving `UNINIT` -/

/-- An operation in `READY` ends in `READY`, or in `FAULTED` by a second `INIT` (R112). -/
theorem Instr.readyEffect_phase_ne_uninit (i : Instr) {s : State} (hp : s.phase = .ready) :
    (Instr.readyEffect i s).phase ≠ .uninit := by
  by_cases hi : i = .init
  · subst hi
    exact (State.raiseFault_phase s .reinit).trans_ne (by decide)
  · rw [Instr.readyEffect_phase hi, hp]
    decide

/-- No operation ends in `UNINIT`: it ends in `READY` or faults (R134). -/
theorem phase_ne_uninit_of_exec {i : Instr} {s t : State} (h : exec i s = .next t) : t.phase ≠ .uninit := by
  rcases exec_next_cases h with ⟨hp, rfl⟩ | ⟨_, _, rfl⟩ | ⟨_, _, rfl⟩
  · exact Instr.readyEffect_phase_ne_uninit i hp
  · simp
  · simp

/-- No turn ends in `UNINIT`, wherever it was taken (R134): a word that selects no operation faults. -/
theorem phase_ne_uninit_of_takeTurn {u : Turn} {s t : State} (h : takeTurn u s = .next t) : t.phase ≠ .uninit := by
  rcases takeTurn_cases h with ⟨c, _, _, _, rfl⟩ | ⟨i, _, _, he⟩
  · simp
  · exact phase_ne_uninit_of_exec he

/-- Settles O15: in `UNINIT` a turn is a fault or a successful `INIT`, and no turn ends in `UNINIT`. -/
theorem onlyInitLeavesUninit : Obligations.OnlyInitLeavesUninit := by
  refine fun u s t h => ⟨fun hp _ => ?_, fun _ => phase_ne_uninit_of_takeTurn h⟩
  rcases takeTurn_cases h with ⟨c, _, _, _, rfl⟩ | ⟨i, hop, _, he⟩
  · exact .inl rfl
  · rcases (exec_next_of_uninit hp).1 he with ⟨rfl, rfl⟩ | ⟨_, _, rfl⟩
    · exact .inr ⟨hop, rfl⟩
    · exact .inl rfl

/-! ### A successful end -/

/-- At the end of its program `HOST` has no word, and so no step (R92, R149). -/
theorem takeTurn_host_of_pc_eq_length {s : State} (h : s.pc = s.program.length) :
    takeTurn .host s = .fault (.notEnabled .host) := by
  have hword : s.wordOf .host = none := List.getElem?_eq_none h.ge
  rw [takeTurn, hword]
  rfl

/-- An arriving byte is received after the end too, and leaves the run at its end (R149). -/
theorem EndsSuccessfully.takeTurn_rxByte {s : State} (h : EndsSuccessfully s) (r : Byte) :
    ∃ t, takeTurn (.rxi (encode (.rxByte r))) s = .next t ∧ EndsSuccessfully t := by
  obtain ⟨hready, hpc, hoff⟩ := h
  have hexec := exec_rxByte_of_ready hready r
  obtain ⟨hphase, _, hpc', hprogram, _⟩ := exec_device_frame (by simp [Instr.issuer]) hexec
  refine ⟨rxByteEffect r s, (takeTurn_eq_exec rfl (decode_encode _) rfl).trans hexec, hphase.trans hready, ?_,
    (rxByteEffect_txie r s).trans hoff⟩
  rw [hpc', hprogram, hpc]

/-- Settles O47: the end of the program stops `HOST`, the disarmed controller stops `TXI`, and by the invariant it is
disarmed only on an empty TX FIFO. -/
theorem successfulEndIsQuiet : Obligations.SuccessfulEndIsQuiet := by
  intro s hreach hend
  obtain ⟨hready, hpc, hoff⟩ := hend
  have hempty : s.isEmpty .tx = true := by
    simpa [hoff] using (hreach.blockInv.ready hready).txie_iff
  have htxi : takeTurn (.txi (encode .txService)) s = .fault (.notEnabled .txi) :=
    (takeTurn_eq_exec rfl (decode_encode .txService) rfl).trans (exec_txService_of_disarmed hoff)
  exact ⟨hempty, takeTurn_host_of_pc_eq_length hpc, htxi, EndsSuccessfully.takeTurn_rxByte ⟨hready, hpc, hoff⟩⟩

end Sys2Proof.Machine
end
